-- ==== Sys2Proof/Word.lean ====
section
/-! DEFINITION. The word types of the MKF framer block: the byte (00_scope.md R10) and the 16-bit command
word (30_encoding.md R80). -/

namespace Sys2Proof

/-- "A byte is 8 bits" (00_scope.md R10). -/
abbrev Byte := BitVec 8

/-- A command word is exactly 16 bits (30_encoding.md R80, R86). -/
abbrev Word := BitVec 16

end Sys2Proof
end

