-- ==== Sys2Proof/Config.lean ====
section
/-! DEFINITION. The construction parameters of a block instance (00_scope.md R6), the types of their legal
values, and the constants the source fixes (00_scope.md R7). -/

namespace Sys2Proof

/-- The codec's byte order, parameter BYTE_ORDER and register CFG_ORDER (00_scope.md R6, 10_state.md R23). -/
inductive ByteOrder where
  /-- Little-endian: the least significant byte at the lowest offset (20_memory.md R63). -/
  | le
  /-- Big-endian: the most significant byte at the lowest offset (20_memory.md R63). -/
  | be
deriving DecidableEq, Repr

/-- A legal value of parameter NCK and register CFG_NCK: 7 bits, 1..127, "0 is illegal" (10_state.md R23).
A construction outside that range is not an instance (00_scope.md R9), so no value of this type stands
for one. -/
structure Nck where
  val : BitVec 7
  pos : 0 < val.toNat
deriving DecidableEq, Repr

/-- NCK as a number. -/
abbrev Nck.toNat (n : Nck) : Nat := n.val.toNat

/-- The legal value a construction argument stands for, if it lies in 1..127 (00_scope.md R6, R9). -/
def Nck.ofNat? (n : Nat) : Option Nck :=
  if h : 1 ≤ n ∧ n ≤ 127 then
    some ⟨BitVec.ofNat 7 n, by rw [BitVec.toNat_ofNat]; omega⟩
  else none

/-- MAX_LEN: the largest declared payload length, and the largest payload TXP accepts (00_scope.md R7). -/
abbrev Config.maxLen : Nat := 127

/-- The number of bytes of rx_payload (10_state.md R27). -/
abbrev Config.payloadSize : Nat := 127

/-- The number of bytes of tx_scratch (10_state.md R29). -/
abbrev Config.scratchSize : Nat := 256

/-- The MAGIC of the instance `State.reset` describes: an OPEN parameter the spec gives no value
(00_scope.md R6, D1). DESIGN CHOICE (log entry 1): opaque, so no proof can rest on a value of it; safe. -/
opaque Config.magic : Byte

/-- NCK less 1 of the instance `State.reset` describes: NCK is an OPEN parameter in 1..127 (00_scope.md R6,
D2). DESIGN CHOICE (log entry 1): opaque, so no proof can rest on a value of it; safe. -/
opaque Config.nckLessOne : Fin 127

/-- The NCK of the instance `State.reset` describes: any value of 1..127 (log entry 1). -/
def Config.nck : Nck :=
  ⟨BitVec.ofNat 7 (Config.nckLessOne.val + 1), by
    have h := Config.nckLessOne.isLt
    rw [BitVec.toNat_ofNat]; omega⟩

end Sys2Proof
end

