-- ==== Sys2Proof/Machine/State.lean ====
section
/-! DEFINITION. The state of one block instance as plain data (10_state.md), the requests and responses at its
port, the reasons a step can stop, construction and the state after it. -/

namespace Sys2Proof.Machine

/-- The inbound state `rx_state` (10_state.md R24). -/
inductive RxState where
  /-- "searching for frame start" -/
  | sync
  /-- "reading declared length" -/
  | payloadLen
  /-- "accumulating payload bytes" -/
  | payload
  /-- "accumulating checksum bytes" -/
  | checksum
deriving DecidableEq, Repr

/-- The contents of one storage space (20_memory.md R60): the bytes that hold a value, by rising address.
A byte not listed is DEAD (00_scope.md R12). -/
abbrev Memory := List Host.Cell

/-- What an unlisted address reads as: DEAD, "no value" (00_scope.md R12), never a byte. -/
abbrev Memory.unlisted : Option Byte := none

/-- The canonical form: addresses strictly rising. No entry can equal what an unlisted address reads as,
since that is no byte. -/
abbrev Memory.wf (m : Memory) : Prop := (m.map Prod.fst).Pairwise (· < ·)

/-- The two fault reasons (60_exceptions.md R201). -/
inductive FaultReason where
  /-- FAULT_RANGE: `off + w/8 > len(buf)`. -/
  | range
  /-- FAULT_ILLEGAL: the command word decodes to ILLEGAL. -/
  | illegal
deriving DecidableEq, Repr

/-- A fault with the information 60_exceptions.md R201 records with it. -/
inductive FaultInfo where
  /-- FAULT_RANGE(off, n, len(buf)) (40_codec.md R111). -/
  | range (off n len : Nat)
  /-- FAULT_ILLEGAL with the 16-bit command word. -/
  | illegal (cw : Word)
deriving DecidableEq, Repr

/-- `fault_mark`: a set of fault reasons (10_state.md R33), as one membership bit per reason. -/
structure FaultMark where
  range : Bool
  illegal : Bool
deriving DecidableEq, Repr

/-- A response (10_state.md R40): one constructor per status that can be produced, with that status's data
(R38). Status code 7 is never produced, so nothing here stands for it. -/
inductive Response where
  /-- NONE: "no message this call". -/
  | none
  /-- VALID: a frame completed and its checksum matched; a copy of the payload. -/
  | valid (payload : List Byte)
  /-- REJECTED: a frame completed and its checksum did not match. -/
  | rejected
  /-- OK of TXP, with the frame. -/
  | okFrame (frame : List Byte)
  /-- OK of ENC.*, with the updated buffer. -/
  | okBuf (buf : List Byte)
  /-- OK of DEC.*, with a value of exactly w bits. -/
  | okValue (w : Nat) (value : BitVec w)
  /-- FAIL_LEN of TXP: payload longer than 127 bytes. -/
  | failLen
  /-- FAULT_RANGE of ENC.* and DEC.*. -/
  | faultRange
  /-- FAULT_ILLEGAL of any reserved command word. -/
  | faultIllegal
deriving DecidableEq, Repr

/-- The data operands of a request (10_state.md R38): TXP takes `payload`, the codec `buf`, and each ENC
operation a value of exactly its width, which has a lane of its own here so that no operand is ever
truncated or extended (30_encoding.md R84, D32). An operation reads its own operands only. -/
structure Operands where
  payload : List Byte := []
  buf : List Byte := []
  valueI8 : BitVec 8 := 0
  valueI16 : BitVec 16 := 0
  valueI32 : BitVec 32 := 0
  valueI64 : BitVec 64 := 0
  valueF32 : BitVec 32 := 0
deriving DecidableEq, Repr

/-- A request: a command word with its data operands (10_state.md R38). -/
structure Request where
  cw : Word
  operands : Operands
deriving DecidableEq, Repr

/-- The whole state of one block instance (10_state.md R21, R23 to R29, R33), the information recorded with
faults (60_exceptions.md R201), and the host's side of the port (R38 to R40). -/
structure State where
  /-- CFG_MAGIC (R23). -/
  cfgMagic : Byte
  /-- CFG_NCK (R23). -/
  cfgNck : Nck
  /-- CFG_ORDER (R23). -/
  cfgOrder : ByteOrder
  /-- rx_state (R24). -/
  rxState : RxState
  /-- rx_count (R25). -/
  rxCount : BitVec 7
  /-- rx_len (R26); none is DEAD, the spec's own "no value" (R12). -/
  rxLen : Option (BitVec 7)
  /-- rx_payload[0..127) (R27). -/
  rxPayload : Memory
  /-- rx_cks[0..NCK) (R28). -/
  rxCks : Memory
  /-- tx_scratch[0..256) (R29). -/
  txScratch : Memory
  /-- fault_mark (R33). -/
  faultMark : FaultMark
  /-- What was recorded with each fault (60_exceptions.md R201), oldest first. -/
  faultInfo : List FaultInfo
  /-- The requests the host has still to be served, in issue order (00_scope.md R13, R38). -/
  requests : List Request
  /-- The responses given so far, oldest first (R39, R40). -/
  responses : List Response
deriving DecidableEq, Repr

/-- Why a step stops. Every reason needs a state outside the table of 10_state.md R31, which no run from a
construction reaches; RXB alone raises them. All are safe: the model stops where the spec gives no value. -/
inductive Fault where
  /-- A read of rx_len while it is DEAD (00_scope.md R12). Raised by RXB in PAYLOAD and CHECKSUM. Safe. -/
  | deadRxLen
  /-- A read of a byte of rx_payload that is DEAD (00_scope.md R12). Raised by RXB when it validates. Safe. -/
  | deadRxPayload
  /-- A read of a byte of rx_cks that is DEAD (00_scope.md R12). Raised by RXB when it validates. Safe. -/
  | deadRxCks
  /-- A write to rx_payload[index] with index not below 127: no such byte (20_memory.md R60). Raised by RXB
  in PAYLOAD. Safe. -/
  | noRxPayloadByte (index : Nat)
  /-- A write to rx_cks[index] with index not below CFG_NCK: no such byte (20_memory.md R60). Raised by RXB
  in CHECKSUM. Safe. -/
  | noRxCksByte (index : Nat)
deriving DecidableEq, Repr

/-- What the model refuses. -/
inductive Refusal where
  /-- An instruction without a meaning yet, by its mnemonic; only an arm of exec can say so. Safe. -/
  | notModelled (mnemonic : String)
  /-- A construction with NCK outside 1..127 (00_scope.md R9, 60_exceptions.md R205): "not a block instance".
  Raised by `State.construct` only, never by a step. Safe. -/
  | notAnInstance (nck : Nat)
deriving DecidableEq, Repr

/-- The state after a construction with legal parameters (70_reset_and_hazards.md R230, 10_state.md R43), no
request standing and no response given. -/
def State.initial (magic : Byte) (nck : Nck) (order : ByteOrder) : State where
  cfgMagic := magic
  cfgNck := nck
  cfgOrder := order
  rxState := .sync
  rxCount := 0
  rxLen := none
  rxPayload := []
  rxCks := []
  txScratch := []
  faultMark := ⟨false, false⟩
  faultInfo := []
  requests := []
  responses := []

/-- Construct(MAGIC, NCK, BYTE_ORDER) (70_reset_and_hazards.md R230): refused unless 1 <= NCK <= 127; the
default order is LE (00_scope.md R6). -/
def State.construct (magic : Byte) (nck : Nat) (order : ByteOrder := .le) : Except Refusal State :=
  match Nck.ofNat? nck with
  | some n => .ok (State.initial magic n order)
  | none => .error (.notAnInstance nck)

/-- The block right after construction, its only reset (70_reset_and_hazards.md R230): the state of
10_state.md R43 for an instance whose MAGIC and NCK are the opaque parameters of Config (log entry 1) and
whose BYTE_ORDER is the default LE (00_scope.md R6). -/
def State.reset : State := State.initial Config.magic Config.nck .le

end Sys2Proof.Machine
end

