-- ==== Sys2Proof/Machine/Ops.lean ====
section
/-! DEFINITION. The shared operations: storage spaces, responding, taking a fault, the implicit reset of the
RX context, and the request a step serves. -/

namespace Sys2Proof.Machine

/-! ## Storage spaces (20_memory.md R60) -/

/-- The byte at an address, or DEAD. -/
def Memory.read (m : Memory) (a : Nat) : Option Byte :=
  match m with
  | [] => Memory.unlisted
  | (k, v) :: rest => if a = k then some v else Memory.read rest a

/-- `buf[a] <- b`: one byte written, every other byte as it was, rising addresses kept. -/
def Memory.write (m : Memory) (a : Nat) (b : Byte) : Memory :=
  match m with
  | [] => [(a, b)]
  | (k, v) :: rest =>
    if a < k then (a, b) :: (k, v) :: rest
    else if a = k then (a, b) :: rest
    else (k, v) :: Memory.write rest a b

/-- `buf[a] <- b` in a space of `size` bytes; none where no such byte exists. -/
def Memory.put (size : Nat) (m : Memory) (a : Nat) (b : Byte) : Option Memory :=
  if a < size then some (m.write a b) else none

/-- Write a byte sequence from address a upwards. -/
def Memory.writeBytes (m : Memory) (a : Nat) (bs : List Byte) : Memory :=
  match bs with
  | [] => m
  | b :: rest => Memory.writeBytes (m.write a b) (a + 1) rest

/-- `buf[a..a+n)`; none if any of those bytes is DEAD. -/
def Memory.readBytes (m : Memory) (a n : Nat) : Option (List Byte) :=
  match n with
  | 0 => some []
  | k + 1 =>
    match m.read a, Memory.readBytes m (a + 1) k with
    | some b, some bs => some (b :: bs)
    | _, _ => none

/-- `for i: buf[i] <- DEAD`: the space with no byte holding a value (00_scope.md R12). -/
def Memory.allDead : Memory := []

/-! ## The port (10_state.md R38 to R41) -/

/-- The command word of the request that stands at the port, if one does. -/
def pendingWord (s : State) : Option Word :=
  match s.requests with
  | [] => none
  | r :: _ => some r.cw

/-- The data operands of the request that stands at the port (10_state.md R38). -/
def operandsOf (s : State) : Operands :=
  match s.requests with
  | [] => { }
  | r :: _ => r.operands

/-- `respond r`: the request is answered and gone, and the host holds one more response (10_state.md R39).
Responses already given stay as they are (R41). -/
def respond (r : Response) (s : State) : State :=
  { s with requests := s.requests.tail, responses := s.responses ++ [r] }

/-! ## Faults (60_exceptions.md R200, R201) -/

/-- The reason of a fault. -/
def reasonOf (f : FaultInfo) : FaultReason :=
  match f with
  | .range _ _ _ => .range
  | .illegal _ => .illegal

/-- The response of a fault: "Its response carries only the status" (60_exceptions.md R201). -/
def faultResponse (f : FaultInfo) : Response :=
  match f with
  | .range _ _ _ => .faultRange
  | .illegal _ => .faultIllegal

/-- Membership in fault_mark (10_state.md R33). -/
def FaultMark.has (m : FaultMark) (r : FaultReason) : Bool :=
  match r with
  | .range => m.range
  | .illegal => m.illegal

/-- fault_mark with a reason added; none is ever removed (10_state.md R33). -/
def FaultMark.add (m : FaultMark) (r : FaultReason) : FaultMark :=
  match r with
  | .range => { m with range := true }
  | .illegal => { m with illegal := true }

/-- `raise f`: the one way a fault is taken (60_exceptions.md R200, R201). The request ends with the fault's
response, the reason joins fault_mark with its information recorded, no block state changes and the block
goes on (R208, R209). There is no trap entry and so no return (R200, R209). -/
def raiseFault (f : FaultInfo) (s : State) : State :=
  respond (faultResponse f)
    { s with faultMark := s.faultMark.add (reasonOf f), faultInfo := s.faultInfo ++ [f] }

/-- The end of a request whose word is ILLEGAL (30_encoding.md R83, 60_exceptions.md R203). -/
def illegalWord (cw : Word) (s : State) : State := raiseFault (.illegal cw) s

/-! ## The RX context -/

/-- EnterSync(): the implicit reset of the inbound context (41_rx_framer.md R145). -/
def enterSync (s : State) : State :=
  { s with
    rxState := .sync
    rxCount := 0
    rxLen := none
    rxPayload := Memory.allDead
    rxCks := Memory.allDead }

end Sys2Proof.Machine
end

