-- ==== Sys2Proof/Machine/Operands.lean ====
section
/-! DEFINITION. The operand forms: the codec's buffer access, byte images and range check (20_memory.md R63,
R70; 40_codec.md R111 to R113), the length byte (30_encoding.md R88), and the readings of a pattern as a
number (30_encoding.md R91). -/

namespace Sys2Proof.Machine

/-- InRange(buf, off, n), on unbounded naturals (40_codec.md R111). -/
def inRange (buf : List Byte) (off n : Nat) : Bool := decide (off + n ≤ buf.length)

/-- MemRead(buf, off, n) = buf[off..off+n) (00_scope.md R11). -/
def memRead (buf : List Byte) (off n : Nat) : List Byte := (buf.drop off).take n

/-- MemWrite(buf, off, n, s): buf with bytes off..off+n-1 replaced by the n bytes of s (00_scope.md R11). -/
def memWrite (buf : List Byte) (off : Nat) (s : List Byte) : List Byte :=
  buf.take off ++ s ++ buf.drop (off + s.length)

/-- Byte k of the image of a w-bit pattern: v[8k+7:8k] in LE, v[w-1-8k:w-8-8k] in BE (20_memory.md R63). -/
def imageByte (order : ByteOrder) (w : Nat) (v : BitVec w) (k : Nat) : Byte :=
  match order with
  | .le => v.extractLsb' (8 * k) 8
  | .be => v.extractLsb' (w - 8 - 8 * k) 8

/-- Bytes_w(v) (40_codec.md R112). -/
def bytesOf (order : ByteOrder) (w : Nat) (v : BitVec w) : List Byte :=
  (List.range (w / 8)).map (imageByte order w v)

/-- The bytes of s as one pattern, `{s[n-1], ..., s[1], s[0]}`: the first byte least significant. -/
def concatBytes (w : Nat) (s : List Byte) : BitVec w :=
  match s with
  | [] => 0
  | b :: rest => concatBytes w rest <<< 8 ||| b.setWidth w

/-- Pattern_w(s) (40_codec.md R113). -/
def patternOf (order : ByteOrder) (w : Nat) (s : List Byte) : BitVec w :=
  match order with
  | .le => concatBytes w s
  | .be => concatBytes w s.reverse

/-- Encode(buf, off, w, v) (40_codec.md R112). -/
def encodeBuf (order : ByteOrder) (w : Nat) (buf : List Byte) (off : Nat) (v : BitVec w) : List Byte :=
  memWrite buf off (bytesOf order w v)

/-- Decode(buf, off, w) (40_codec.md R113). -/
def decodeBuf (order : ByteOrder) (w : Nat) (buf : List Byte) (off : Nat) : BitVec w :=
  patternOf order w (memRead buf off (w / 8))

/-- A length byte a receiver accepts: 0x01 <= b <= 0x7F, unsigned (30_encoding.md R88). -/
def lengthAccepted (b : Byte) : Bool := decide (1 ≤ b.toNat ∧ b.toNat ≤ 127)

/-- b[6:0] (41_rx_framer.md R142). -/
def lengthField (b : Byte) : BitVec 7 := b.extractLsb' 0 7

/-- sint_w(v) = uint(v) - 2^w * v[w-1] (00_scope.md R11; PRESUMED by the spec from general knowledge, G1; log entry 9). -/
def sintOf (w : Nat) (v : BitVec w) : Int :=
  (v.toNat : Int) - 2 ^ w * (if v.getLsbD (w - 1) then 1 else 0)

/-- The two's complement pattern that presents the signed integer x to ENC.Iw (40_codec.md R114). -/
def patternOfInt (w : Nat) (x : Int) : BitVec w := BitVec.ofInt w x

/-- The sign bit of a binary32 pattern (30_encoding.md R91). -/
def f32Sign (v : BitVec 32) : BitVec 1 := v.extractLsb' 31 1

/-- The biased exponent of a binary32 pattern (30_encoding.md R91). -/
def f32Exponent (v : BitVec 32) : BitVec 8 := v.extractLsb' 23 8

/-- The fraction of a binary32 pattern (30_encoding.md R91). -/
def f32Fraction (v : BitVec 32) : BitVec 23 := v.extractLsb' 0 23

end Sys2Proof.Machine
end

