-- ==== Sys2Proof/Machine/Codec.lean ====
section
/-! DEFINITION. The ByteCodec: the meanings of ENC.* and DEC.* (40_codec.md R110 to R124), each one line over
the two shared operations. -/

namespace Sys2Proof.Machine

/-- Encode a w-bit pattern at an offset of the request's buffer: range check first, then the updated buffer
is the response (40_codec.md R110 to R112). No block state is written. -/
def codecEncode (w off : Nat) (v : BitVec w) (s : State) : State :=
  if inRange (operandsOf s).buf off (w / 8) then
    respond (.okBuf (encodeBuf s.cfgOrder w (operandsOf s).buf off v)) s
  else raiseFault (.range off (w / 8) (operandsOf s).buf.length) s

/-- Decode a w-bit pattern at an offset of the request's buffer: range check first, then the pattern is the
response (40_codec.md R110, R111, R113). No block state is written. -/
def codecDecode (w off : Nat) (s : State) : State :=
  if inRange (operandsOf s).buf off (w / 8) then
    respond (.okValue w (decodeBuf s.cfgOrder w (operandsOf s).buf off)) s
  else raiseFault (.range off (w / 8) (operandsOf s).buf.length) s

/-- ENC.I8 (40_codec.md R115). -/
def execEncI8 (off : Nat) (s : State) : Host.Outcome State Fault Refusal :=
  .next (codecEncode 8 off (operandsOf s).valueI8 s)

/-- ENC.I16 (40_codec.md R116). -/
def execEncI16 (off : Nat) (s : State) : Host.Outcome State Fault Refusal :=
  .next (codecEncode 16 off (operandsOf s).valueI16 s)

/-- ENC.I32 (40_codec.md R117). -/
def execEncI32 (off : Nat) (s : State) : Host.Outcome State Fault Refusal :=
  .next (codecEncode 32 off (operandsOf s).valueI32 s)

/-- ENC.I64 (40_codec.md R118). -/
def execEncI64 (off : Nat) (s : State) : Host.Outcome State Fault Refusal :=
  .next (codecEncode 64 off (operandsOf s).valueI64 s)

/-- ENC.F32 (40_codec.md R119): the binary32 pattern bit for bit, with no floating-point operation (R114). -/
def execEncF32 (off : Nat) (s : State) : Host.Outcome State Fault Refusal :=
  .next (codecEncode 32 off (operandsOf s).valueF32 s)

/-- DEC.I8 (40_codec.md R120). -/
def execDecI8 (off : Nat) (s : State) : Host.Outcome State Fault Refusal :=
  .next (codecDecode 8 off s)

/-- DEC.I16 (40_codec.md R121). -/
def execDecI16 (off : Nat) (s : State) : Host.Outcome State Fault Refusal :=
  .next (codecDecode 16 off s)

/-- DEC.I32 (40_codec.md R122). -/
def execDecI32 (off : Nat) (s : State) : Host.Outcome State Fault Refusal :=
  .next (codecDecode 32 off s)

/-- DEC.I64 (40_codec.md R123). -/
def execDecI64 (off : Nat) (s : State) : Host.Outcome State Fault Refusal :=
  .next (codecDecode 64 off s)

/-- DEC.F32 (40_codec.md R124): the pattern unchanged, with no quieting of a NaN (R114). -/
def execDecF32 (off : Nat) (s : State) : Host.Outcome State Fault Refusal :=
  .next (codecDecode 32 off s)

end Sys2Proof.Machine
end

