-- ==== Sys2Proof/Machine/Checksum.lean ====
section
/-! DEFINITION. The N-level checksum cascade, shared by the RX and TX framers (42_tx_checksum.md R170, R171),
and the comparison of trailers (41_rx_framer.md R146). -/

namespace Sys2Proof.Machine

/-- The accumulators before any payload byte: c[0] = 1 and c[k] = 0 for k in 1..N-1 (42_tx_checksum.md
R170). -/
def cascadeStart (n : Nat) : List Byte :=
  match n with
  | 0 => []
  | k + 1 => 1 :: List.replicate k 0

/-- One payload byte's update, levels ascending: what is added to a level is `below`, the payload byte for
level 0 and the level below as just updated for the others (42_tx_checksum.md R170). Addition is modulo
256 (R171). -/
def cascadeByte (below : Byte) (c : List Byte) : List Byte :=
  match c with
  | [] => []
  | x :: rest => (x + below) :: cascadeByte (x + below) rest

/-- Cascade(p, N) (42_tx_checksum.md R170). -/
def cascade (p : List Byte) (n : Nat) : List Byte :=
  p.foldl (fun c v => cascadeByte v c) (cascadeStart n)

/-- CksEqual(exp, rcv): byte for byte (41_rx_framer.md R146). -/
def cksEqual (expected received : List Byte) : Bool := decide (expected = received)

end Sys2Proof.Machine
end

