-- ==== Sys2Proof/Machine/Rx.lean ====
section
/-! DEFINITION. The RX framer: the meaning of RXB, one definition per inbound state (41_rx_framer.md R140 to
R146). -/

namespace Sys2Proof.Machine

/-- RXB in SYNC: a MAGIC byte starts a frame, any other is discarded (41_rx_framer.md R141). -/
def rxbInSync (b : Byte) (s : State) : State :=
  respond .none
    (if b = s.cfgMagic then { s with rxCount := 0, rxState := .payloadLen } else s)

/-- RXB in PAYLOAD_LEN: a length of 1..127 starts the payload with a fresh buffer, any other discards the
frame (41_rx_framer.md R142). -/
def rxbInPayloadLen (b : Byte) (s : State) : State :=
  respond .none
    (if lengthAccepted b then
      { s with
        rxLen := some (lengthField b)
        rxPayload := Memory.allDead
        rxCount := 0
        rxState := .payload }
    else enterSync s)

/-- RXB in PAYLOAD: the byte is stored and counted; at the declared length the checksum phase begins with the
count at 0 (41_rx_framer.md R143, D5). -/
def rxbInPayload (b : Byte) (s : State) : Host.Outcome State Fault Refusal :=
  match Memory.put Config.payloadSize s.rxPayload s.rxCount.toNat b with
  | none => .fault (.noRxPayloadByte s.rxCount.toNat)
  | some m =>
    match s.rxLen with
    | none => .fault .deadRxLen
    | some len =>
      .next (respond .none
        (if s.rxCount + 1 = len then
          { s with rxPayload := m, rxCount := 0, rxState := .checksum }
        else { s with rxPayload := m, rxCount := s.rxCount + 1 }))

/-- The result of a completed frame: VALID with a copy of the payload if the received trailer equals the
cascade of the payload, REJECTED otherwise (41_rx_framer.md R144, R146). A DEAD element read on the way is
a fault (00_scope.md R12). -/
def frameResult (s : State) : Except Fault Response :=
  match s.rxLen with
  | none => .error .deadRxLen
  | some len =>
    match s.rxPayload.readBytes 0 len.toNat with
    | none => .error .deadRxPayload
    | some p =>
      match s.rxCks.readBytes 0 s.cfgNck.toNat with
      | none => .error .deadRxCks
      | some rcv => .ok (if cksEqual (cascade p s.cfgNck.toNat) rcv then .valid p else .rejected)

/-- RXB in CHECKSUM: the byte is stored and counted; the NCK-th one completes the frame, whose result is
formed before the context is reset (41_rx_framer.md R144, R145). -/
def rxbInChecksum (b : Byte) (s : State) : Host.Outcome State Fault Refusal :=
  match Memory.put s.cfgNck.toNat s.rxCks s.rxCount.toNat b with
  | none => .fault (.noRxCksByte s.rxCount.toNat)
  | some m =>
    let t := { s with rxCks := m, rxCount := s.rxCount + 1 }
    if s.rxCount + 1 = s.cfgNck.val then
      match frameResult t with
      | .error f => .fault f
      | .ok r => .next (respond r (enterSync t))
    else .next (respond .none t)

/-- RXB: exactly one of the four rules, by rx_state (41_rx_framer.md R140). -/
def execRxb (b : Byte) (s : State) : Host.Outcome State Fault Refusal :=
  match s.rxState with
  | .sync => .next (rxbInSync b s)
  | .payloadLen => .next (rxbInPayloadLen b s)
  | .payload => rxbInPayload b s
  | .checksum => rxbInChecksum b s

end Sys2Proof.Machine
end

