-- ==== Sys2Proof/Machine/Tx.lean ====
section
/-! DEFINITION. The TX framer: the meaning of TXP (42_tx_checksum.md R180 to R182). -/

namespace Sys2Proof.Machine

/-- The frame of a payload, `[MAGIC, L[7:0]] ++ payload ++ Cascade(payload, NCK)` (42_tx_checksum.md R180,
30_encoding.md R87). -/
def frameOf (magic : Byte) (nck : Nck) (p : List Byte) : List Byte :=
  [magic, BitVec.ofNat 8 p.length] ++ p ++ cascade p nck.toNat

/-- TXP: FAIL_LEN above 127 bytes, with nothing changed (42_tx_checksum.md R181, D11); otherwise the frame is
written to tx_scratch from byte 0 and a copy returned (R180). An empty payload is framed too (R182). -/
def execTxp (s : State) : Host.Outcome State Fault Refusal :=
  let p := (operandsOf s).payload
  let frame := frameOf s.cfgMagic s.cfgNck p
  .next
    (if p.length > Config.maxLen then respond .failLen s
     else respond (.okFrame frame) { s with txScratch := s.txScratch.writeBytes 0 frame })

end Sys2Proof.Machine
end

