-- ==== Sys2Proof/Syntax.lean ====
section
/-! DEFINITION. The operations of the block as syntax: one constructor per row of the opcode table
(30_encoding.md R82). Only what the command word carries is an operand here; the data operands (payload,
buffer, value) come with the request (10_state.md R38) and stand in the state. -/

namespace Sys2Proof

/-- The twelve operations (30_encoding.md R82). `off` is the codec offset as the natural number R84 makes of
cw[7:0]. -/
inductive Instr where
  /-- RXB b (41_rx_framer.md R140): feed one received byte. -/
  | rxb (b : Byte)
  /-- TXP (42_tx_checksum.md R180): prepare an outbound frame. -/
  | txp
  /-- ENC.I8 off (40_codec.md R115). -/
  | encI8 (off : Nat)
  /-- ENC.I16 off (40_codec.md R116). -/
  | encI16 (off : Nat)
  /-- ENC.I32 off (40_codec.md R117). -/
  | encI32 (off : Nat)
  /-- ENC.I64 off (40_codec.md R118). -/
  | encI64 (off : Nat)
  /-- ENC.F32 off (40_codec.md R119). -/
  | encF32 (off : Nat)
  /-- DEC.I8 off (40_codec.md R120). -/
  | decI8 (off : Nat)
  /-- DEC.I16 off (40_codec.md R121). -/
  | decI16 (off : Nat)
  /-- DEC.I32 off (40_codec.md R122). -/
  | decI32 (off : Nat)
  /-- DEC.I64 off (40_codec.md R123). -/
  | decI64 (off : Nat)
  /-- DEC.F32 off (40_codec.md R124). -/
  | decF32 (off : Nat)
deriving DecidableEq, Repr

end Sys2Proof
end

