-- ==== Sys2Proof/Machine/Dispatch.lean ====
section
/-! DEFINITION. The dispatch: one arm per operation (30_encoding.md R82). -/

namespace Sys2Proof.Machine

/-- The effect of a decoded operation on the state (30_encoding.md R82). -/
def exec (i : Instr) (s : State) : Host.Outcome State Fault Refusal :=
  match i with
  | .rxb b => Sys2Proof.Machine.execRxb b s
  | .txp => Sys2Proof.Machine.execTxp s
  | .encI8 off => Sys2Proof.Machine.execEncI8 off s
  | .encI16 off => Sys2Proof.Machine.execEncI16 off s
  | .encI32 off => Sys2Proof.Machine.execEncI32 off s
  | .encI64 off => Sys2Proof.Machine.execEncI64 off s
  | .encF32 off => Sys2Proof.Machine.execEncF32 off s
  | .decI8 off => Sys2Proof.Machine.execDecI8 off s
  | .decI16 off => Sys2Proof.Machine.execDecI16 off s
  | .decI32 off => Sys2Proof.Machine.execDecI32 off s
  | .decI64 off => Sys2Proof.Machine.execDecI64 off s
  | .decF32 off => Sys2Proof.Machine.execDecF32 off s

end Sys2Proof.Machine
end

