-- ==== Sys2Proof/WellFormed.lean ====
section
/-! DEFINITION. Which instructions a command word can carry: a codec offset is 0..255 (30_encoding.md R84). -/

namespace Sys2Proof

/-- The instruction can stand in a command word: `off = uint(cw[7:0])`, a natural number 0..255
(30_encoding.md R84). RXB and TXP have no operand that could be out of range. -/
abbrev WellFormed (i : Instr) : Prop :=
  match i with
  | .rxb _ => True
  | .txp => True
  | .encI8 off => off ≤ 255
  | .encI16 off => off ≤ 255
  | .encI32 off => off ≤ 255
  | .encI64 off => off ≤ 255
  | .encF32 off => off ≤ 255
  | .decI8 off => off ≤ 255
  | .decI16 off => off ≤ 255
  | .decI32 off => off ≤ 255
  | .decI64 off => off ≤ 255
  | .decF32 off => off ≤ 255

end Sys2Proof
end

