-- ==== Sys2Proof/Decode.lean ====
section
/-! DEFINITION. Decoding a command word (30_encoding.md R80 to R85), total on all 65536 words and rejecting
by name; after it the encoder, and the two in the opcode table's own numbering of bits. -/

namespace Sys2Proof

/-- Why a word is ILLEGAL (30_encoding.md R85; 10_state.md R40: "reserved opcode or reserved IMM8"). -/
inductive Illegal where
  /-- An OP of no group: 0x00, 0x03..0x0F, 0x20..0xFF. -/
  | reservedOpcode (op : Byte)
  /-- A codec OP whose width selector is 5..7: 0x15..0x17, 0x1D..0x1F. -/
  | reservedWidth (op : Byte)
  /-- TXP with an IMM8 other than 0x00. -/
  | reservedImm8 (imm : Byte)
deriving DecidableEq, Repr

/-- OP = cw[15:8] (30_encoding.md R80). -/
def opOf (cw : Word) : Byte := cw.extractLsb' 8 8

/-- IMM8 = cw[7:0] (30_encoding.md R80). -/
def imm8Of (cw : Word) : Byte := cw.extractLsb' 0 8

/-- The codec operation of a direction (`OP[3]`, 0 = ENC, 1 = DEC), a width selector (`OP[2:0]`) and an
offset; none for the reserved selectors 5..7 (30_encoding.md R81). -/
def codecInstr (dir : Bool) (wsel : Nat) (off : Nat) : Option Instr :=
  match dir, wsel with
  | false, 0 => some (.encI8 off)
  | false, 1 => some (.encI16 off)
  | false, 2 => some (.encI32 off)
  | false, 3 => some (.encI64 off)
  | false, 4 => some (.encF32 off)
  | true, 0 => some (.decI8 off)
  | true, 1 => some (.decI16 off)
  | true, 2 => some (.decI32 off)
  | true, 3 => some (.decI64 off)
  | true, 4 => some (.decF32 off)
  | _, _ => none

/-- The decoder of 30_encoding.md R83, in the rule's order. -/
def decode (cw : Word) : Except Illegal Instr :=
  if opOf cw = 0x01#8 then .ok (.rxb (imm8Of cw))
  else if opOf cw = 0x02#8 then
    if imm8Of cw = 0x00#8 then .ok .txp else .error (.reservedImm8 (imm8Of cw))
  else if (opOf cw).extractLsb' 4 4 = 0b0001#4 then
    match codecInstr ((opOf cw).getLsbD 3) ((opOf cw).extractLsb' 0 3).toNat (imm8Of cw).toNat with
    | some i => .ok i
    | none => .error (.reservedWidth (opOf cw))
  else .error (.reservedOpcode (opOf cw))

/-- A command word from its two fields, `{OP, IMM8}` (30_encoding.md R80). -/
def wordOf (op imm : Byte) : Word := op ++ imm

/-- The command word of a well-formed instruction (30_encoding.md R82). -/
def encode (i : Instr) : Word :=
  match i with
  | .rxb b => wordOf 0x01#8 b
  | .txp => wordOf 0x02#8 0x00#8
  | .encI8 off => wordOf 0x10#8 (BitVec.ofNat 8 off)
  | .encI16 off => wordOf 0x11#8 (BitVec.ofNat 8 off)
  | .encI32 off => wordOf 0x12#8 (BitVec.ofNat 8 off)
  | .encI64 off => wordOf 0x13#8 (BitVec.ofNat 8 off)
  | .encF32 off => wordOf 0x14#8 (BitVec.ofNat 8 off)
  | .decI8 off => wordOf 0x18#8 (BitVec.ofNat 8 off)
  | .decI16 off => wordOf 0x19#8 (BitVec.ofNat 8 off)
  | .decI32 off => wordOf 0x1A#8 (BitVec.ofNat 8 off)
  | .decI64 off => wordOf 0x1B#8 (BitVec.ofNat 8 off)
  | .decF32 off => wordOf 0x1C#8 (BitVec.ofNat 8 off)

/-- What the decoder reads from the table's bits `w`. Every command word is exactly 16 bits and bit i of the
table is bit i of the word (30_encoding.md R80, R86), so bits above `nbits` are 0 and a wider number is no
command word. -/
def decodeTableWord (nbits w : Nat) : Option Instr :=
  if w < 2 ^ nbits ∧ w < 2 ^ 16 then (decode (BitVec.ofNat 16 w)).toOption else none

end Sys2Proof
end

