-- ==== Sys2Proof/Machine/Requests.lean ====
section
/-! DEFINITION. Building requests: the spec's assembler lines (30_encoding.md R94) and pseudo-instructions
(30_encoding.md R95), and the request that carries a given word. Host-side notation; the block never
sees it but as requests. -/

namespace Sys2Proof.Machine

/-- The request of an instruction with data operands (10_state.md R38). -/
def requestOf (i : Instr) (ops : Operands) : Request := ⟨encode i, ops⟩

/-- `RXB b` (30_encoding.md R94). -/
def asmRxb (b : Byte) : Request := requestOf (.rxb b) { }

/-- `RXB MAGIC`: the symbol assembles to the instance's CFG_MAGIC (30_encoding.md R94). -/
def asmRxbMagic (s : State) : Request := asmRxb s.cfgMagic

/-- `TXP payload` (30_encoding.md R94). -/
def asmTxp (p : List Byte) : Request := requestOf .txp { payload := p }

/-- `ENC.I8 buf, off, value` (30_encoding.md R94). -/
def asmEncI8 (buf : List Byte) (off : Nat) (v : BitVec 8) : Request :=
  requestOf (.encI8 off) { buf := buf, valueI8 := v }

/-- `ENC.I16 buf, off, value` (30_encoding.md R94). -/
def asmEncI16 (buf : List Byte) (off : Nat) (v : BitVec 16) : Request :=
  requestOf (.encI16 off) { buf := buf, valueI16 := v }

/-- `ENC.I32 buf, off, value` (30_encoding.md R94). -/
def asmEncI32 (buf : List Byte) (off : Nat) (v : BitVec 32) : Request :=
  requestOf (.encI32 off) { buf := buf, valueI32 := v }

/-- `ENC.I64 buf, off, value` (30_encoding.md R94). -/
def asmEncI64 (buf : List Byte) (off : Nat) (v : BitVec 64) : Request :=
  requestOf (.encI64 off) { buf := buf, valueI64 := v }

/-- `ENC.F32 buf, off, value` (30_encoding.md R94). -/
def asmEncF32 (buf : List Byte) (off : Nat) (v : BitVec 32) : Request :=
  requestOf (.encF32 off) { buf := buf, valueF32 := v }

/-- `DEC.I8 buf, off` (30_encoding.md R94). -/
def asmDecI8 (buf : List Byte) (off : Nat) : Request := requestOf (.decI8 off) { buf := buf }

/-- `DEC.I16 buf, off` (30_encoding.md R94). -/
def asmDecI16 (buf : List Byte) (off : Nat) : Request := requestOf (.decI16 off) { buf := buf }

/-- `DEC.I32 buf, off` (30_encoding.md R94). -/
def asmDecI32 (buf : List Byte) (off : Nat) : Request := requestOf (.decI32 off) { buf := buf }

/-- `DEC.I64 buf, off` (30_encoding.md R94). -/
def asmDecI64 (buf : List Byte) (off : Nat) : Request := requestOf (.decI64 off) { buf := buf }

/-- `DEC.F32 buf, off` (30_encoding.md R94). -/
def asmDecF32 (buf : List Byte) (off : Nat) : Request := requestOf (.decF32 off) { buf := buf }

/-- `RXS b0, ..., bk`: one RXB per byte, in order (30_encoding.md R95). -/
def asmRxs (bs : List Byte) : List Request := bs.map asmRxb

/-- `RXF frame`: RXS over the bytes of a frame an earlier TXP returned (30_encoding.md R95). -/
def asmRxf (frame : List Byte) : List Request := asmRxs frame

/-- `PKT buf, len, tag, src`: from len zero bytes, ENC.I8 of tag at 0 and of src at 1, the second on the
buffer the first returns (30_encoding.md R95). -/
def asmPkt (order : ByteOrder) (len : Nat) (tag src : Byte) : List Request :=
  [asmEncI8 (List.replicate len 0) 0 tag,
   asmEncI8 (encodeBuf order 8 (List.replicate len 0) 0 tag) 1 src]

/-- Operands with which any operation can run: an empty payload, values 0, and 263 zero bytes of buffer, room
for 8 bytes at offset 255. -/
def roomyOperands : Operands := { buf := List.replicate 263 0 }

end Sys2Proof.Machine
end

