-- ==== Sys2Proof/Machine/Step.lean ====
section
/-! DEFINITION. One step: the request that stands at the port is decoded, executed atomically and answered
(00_scope.md R13, 10_state.md R39, 60_exceptions.md R206). -/

namespace Sys2Proof.Machine

/-- Serve the next request: decode first (60_exceptions.md R206), an illegal word ending with FAULT_ILLEGAL
(R203). With no request the block stays parked, its state held (10_state.md R35, R20; log entry 6). -/
def step (s : State) : Host.Outcome State Fault Refusal :=
  match pendingWord s with
  | none => .next s
  | some cw =>
    match decode cw with
    | .error _ => .next (illegalWord cw s)
    | .ok i => exec i s

/-- The state with the table's word `w` as the next request at the port, before any other that stands there,
with operands on which any operation can run (log entry 7). A word of the table is one 16-bit command word
(30_encoding.md R86), so its bits above `nbits` are 0. -/
def State.withFetchWord (s : State) (nbits w : Nat) : State :=
  { s with requests := ⟨BitVec.ofNat 16 (w % 2 ^ nbits), roomyOperands⟩ :: s.requests }

end Sys2Proof.Machine
end

