-- ==== Sys2Proof/Machine/Flags.lean ====
section
/-! DEFINITION. The block has no flag or condition-code register: the status of a response is the only
condition indication, and it is not retained as state (10_state.md R34). Here stand the status codes (R40)
and the other numberings the spec gives. -/

namespace Sys2Proof.Machine

/-- The statuses of 10_state.md R40 that can be produced; code 7 is reserved and never produced. -/
inductive Status where
  | none | valid | rejected | ok | failLen | faultRange | faultIllegal
deriving DecidableEq, Repr

/-- The 3-bit code of a status (10_state.md R40). -/
def statusCode (x : Status) : BitVec 3 :=
  match x with
  | .none => 0
  | .valid => 1
  | .rejected => 2
  | .ok => 3
  | .failLen => 4
  | .faultRange => 5
  | .faultIllegal => 6

/-- The status of a response (10_state.md R40). -/
def statusOf (r : Response) : Status :=
  match r with
  | .none => .none
  | .valid _ => .valid
  | .rejected => .rejected
  | .okFrame _ => .ok
  | .okBuf _ => .ok
  | .okValue _ _ => .ok
  | .failLen => .failLen
  | .faultRange => .faultRange
  | .faultIllegal => .faultIllegal

/-- The code of a fault reason (60_exceptions.md R201). -/
def faultCode (r : FaultReason) : BitVec 3 :=
  match r with
  | .range => 5
  | .illegal => 6

/-- The 2-bit encoding of rx_state (10_state.md R24). -/
def rxStateCode (x : RxState) : BitVec 2 :=
  match x with
  | .sync => 0
  | .payloadLen => 1
  | .payload => 2
  | .checksum => 3

/-- The 1-bit encoding of CFG_ORDER (10_state.md R23). -/
def orderCode (x : ByteOrder) : BitVec 1 :=
  match x with
  | .le => 0
  | .be => 1

end Sys2Proof.Machine
end

