-- ==== Sys2Proof/Safety.lean ====
section
/-! DEFINITION. What a state of a real run looks like (10_state.md R31 and the storage spaces' form), what a
fault-free state is (60_exceptions.md R201), and running requests. -/

namespace Sys2Proof.Safety

open Sys2Proof.Machine

/-- The addresses 0..n-1 of a space hold a value and the rest are DEAD, in canonical form. -/
def WrittenUpTo (m : Memory) (n : Nat) : Prop := m.map Prod.fst = List.range n

/-- The row of the table of 10_state.md R31 that `rx_state` chooses. -/
def RxTable (s : State) : Prop :=
  match s.rxState with
  | .sync => s.rxCount = 0 ∧ s.rxLen = none ∧ s.rxPayload = [] ∧ s.rxCks = []
  | .payloadLen => s.rxCount = 0 ∧ s.rxLen = none ∧ s.rxPayload = [] ∧ s.rxCks = []
  | .payload =>
    ∃ len, s.rxLen = some len ∧ s.rxCount.toNat < len.toNat ∧
      WrittenUpTo s.rxPayload s.rxCount.toNat ∧ s.rxCks = []
  | .checksum =>
    ∃ len, s.rxLen = some len ∧ 1 ≤ len.toNat ∧ s.rxCount.toNat < s.cfgNck.toNat ∧
      WrittenUpTo s.rxPayload len.toNat ∧ WrittenUpTo s.rxCks s.rxCount.toNat

/-- tx_scratch is in canonical form and holds no byte outside its 256 (10_state.md R29). -/
def ScratchForm (s : State) : Prop :=
  s.txScratch.wf ∧ ∀ a, Config.scratchSize ≤ a → s.txScratch.read a = none

/-- fault_mark holds exactly the reasons of the faults recorded (10_state.md R33, 60_exceptions.md R201). -/
def MarkForm (s : State) : Prop :=
  ∀ r, s.faultMark.has r = true ↔ ∃ f ∈ s.faultInfo, reasonOf f = r

/-- The invariant of the block: what every state of a run from a construction satisfies. -/
structure Inv (s : State) : Prop where
  rx : RxTable s
  scratch : ScratchForm s
  mark : MarkForm s

/-- No fault has been taken: what claims about a run assume (60_exceptions.md R201). -/
def FaultFree (s : State) : Prop := ∀ r, s.faultMark.has r = false

/-- The RX context of two states is the same (10_state.md R21: rx_state, rx_count, rx_len, rx_payload,
rx_cks). -/
def SameRx (s t : State) : Prop :=
  s.rxState = t.rxState ∧ s.rxCount = t.rxCount ∧ s.rxLen = t.rxLen ∧
    s.rxPayload = t.rxPayload ∧ s.rxCks = t.rxCks

/-- The configuration of two states is the same (10_state.md R23). -/
def SameCfg (s t : State) : Prop :=
  s.cfgMagic = t.cfgMagic ∧ s.cfgNck = t.cfgNck ∧ s.cfgOrder = t.cfgOrder

/-- The fault record of two states is the same (10_state.md R33). -/
def SameFaults (s t : State) : Prop :=
  s.faultMark = t.faultMark ∧ s.faultInfo = t.faultInfo

/-- Exactly the request at the port was answered, with r (10_state.md R39, R41). -/
def Answered (s : State) (r : Response) (t : State) : Prop :=
  t.requests = s.requests.tail ∧ t.responses = s.responses ++ [r]

/-- The RX context is the reset one (41_rx_framer.md R145). -/
def RxReset (s : State) : Prop :=
  s.rxState = .sync ∧ s.rxCount = 0 ∧ s.rxLen = none ∧ s.rxPayload = [] ∧ s.rxCks = []

/-- Nothing outside the RX context changed: configuration, tx_scratch and the fault record (20_memory.md R74,
41_rx_framer.md R140). -/
def SameOutsideRx (s t : State) : Prop :=
  SameCfg s t ∧ t.txScratch = s.txScratch ∧ SameFaults s t

/-- No block state changed: configuration, RX context and tx_scratch (40_codec.md R110). -/
def SameBlock (s t : State) : Prop :=
  SameCfg s t ∧ SameRx s t ∧ t.txScratch = s.txScratch

/-- A fault was taken: its response given, no block state changed, its reason and nothing else added to
fault_mark, its information recorded (60_exceptions.md R201, R208). -/
def FaultTaken (s : State) (f : FaultInfo) (r : Response) (t : State) : Prop :=
  Answered s r t ∧ SameBlock s t ∧ t.faultInfo = s.faultInfo ++ [f] ∧
    ∀ q, t.faultMark.has q = true ↔ s.faultMark.has q = true ∨ q = reasonOf f

/-- A space with no byte holding a value. -/
def AllDead (m : Memory) : Prop := ∀ a, m.read a = none

/-- buf holds the image of the w-bit pattern v from off on, in the byte order (20_memory.md R63). -/
def HoldsImage (order : ByteOrder) (w : Nat) (v : BitVec w) (buf : List Byte) (off : Nat) : Prop :=
  ∀ k, k < w / 8 →
    (order = .le → buf[off + k]? = some (v.extractLsb' (8 * k) 8)) ∧
    (order = .be → buf[off + k]? = some (v.extractLsb' (w - 8 - 8 * k) 8))

/-- after is buf with bytes off..off+w/8-1 replaced by the image of v, of the same length (40_codec.md
R112). -/
def Encoded (order : ByteOrder) (w : Nat) (v : BitVec w) (buf : List Byte) (off : Nat)
    (after : List Byte) : Prop :=
  after.length = buf.length ∧ HoldsImage order w v after off ∧
    ∀ j, (j < off ∨ off + w / 8 ≤ j) → after[j]? = buf[j]?

/-- What an encode operation with opcode op does: its words decode to it; in range it answers OK with the
encoded buffer and changes nothing else; out of range it takes FAULT_RANGE (40_codec.md R110 to R112). -/
def EncodeBehaviour (i : Nat → Instr) (op : Byte) (w : Nat) (value : Operands → BitVec w) : Prop :=
  (∀ cw, opOf cw = op → decode cw = .ok (i (imm8Of cw).toNat)) ∧
  (∀ s off, off + w / 8 ≤ (operandsOf s).buf.length →
    ∃ t after, exec (i off) s = .next t ∧ Answered s (.okBuf after) t ∧
      Encoded s.cfgOrder w (value (operandsOf s)) (operandsOf s).buf off after ∧
      SameBlock s t ∧ SameFaults s t) ∧
  (∀ s off, (operandsOf s).buf.length < off + w / 8 →
    ∃ t, exec (i off) s = .next t ∧
      FaultTaken s (.range off (w / 8) (operandsOf s).buf.length) .faultRange t)

/-- What a decode operation with opcode op does: its words decode to it; in range it answers OK with the
pattern whose image the buffer holds and changes nothing; out of range it takes FAULT_RANGE (40_codec.md
R110, R111, R113). -/
def DecodeBehaviour (i : Nat → Instr) (op : Byte) (w : Nat) : Prop :=
  (∀ cw, opOf cw = op → decode cw = .ok (i (imm8Of cw).toNat)) ∧
  (∀ s off, off + w / 8 ≤ (operandsOf s).buf.length →
    ∃ t v, exec (i off) s = .next t ∧ Answered s (.okValue w v) t ∧
      HoldsImage s.cfgOrder w v (operandsOf s).buf off ∧ SameBlock s t ∧ SameFaults s t) ∧
  (∀ s off, (operandsOf s).buf.length < off + w / 8 →
    ∃ t, exec (i off) s = .next t ∧
      FaultTaken s (.range off (w / 8) (operandsOf s).buf.length) .faultRange t)

/-- The operations of the codec (30_encoding.md R81). -/
def IsCodec (i : Instr) : Prop :=
  match i with
  | .rxb _ => False
  | .txp => False
  | .encI8 _ => True
  | .encI16 _ => True
  | .encI32 _ => True
  | .encI64 _ => True
  | .encF32 _ => True
  | .decI8 _ => True
  | .decI16 _ => True
  | .decI32 _ => True
  | .decI64 _ => True
  | .decF32 _ => True

/-- The command words 30_encoding.md R85 lists as illegal. -/
def ListedIllegal (cw : Word) : Prop :=
  (opOf cw).toNat = 0x00 ∨
  (0x03 ≤ (opOf cw).toNat ∧ (opOf cw).toNat ≤ 0x0F) ∨
  (0x15 ≤ (opOf cw).toNat ∧ (opOf cw).toNat ≤ 0x17) ∨
  (0x1D ≤ (opOf cw).toNat ∧ (opOf cw).toNat ≤ 0x1F) ∨
  0x20 ≤ (opOf cw).toNat ∨
  ((opOf cw).toNat = 0x02 ∧ imm8Of cw ≠ 0x00)

/-- The widths of the codec (30_encoding.md R81). -/
def CodecWidth (w : Nat) : Prop := w = 8 ∨ w = 16 ∨ w = 32 ∨ w = 64

/-- The responses to the bytes of a frame: NONE for every byte but the last, then r. -/
def frameResponses (frame : List Byte) (r : Response) : List Response :=
  List.replicate (frame.length - 1) .none ++ [r]

/-- The state with RXB requests for the bytes standing at the port, in order, before any others. -/
def feeding (bs : List Byte) (s : State) : State :=
  { s with requests := asmRxs bs ++ s.requests }

/-- Feeding the bytes one RXB each from s ends in t: the machine runs one step per byte. -/
def Feeds (s : State) (bs : List Byte) (t : State) : Prop :=
  Sys2Proof.core.run bs.length (feeding bs s) = .next t

end Sys2Proof.Safety
end

