-- ==== Sys2Proof/Certificates/Slice0/Obligations.lean ====
section
/-! DEFINITION. What is claimed about the block, one definition per statement; OBLIGATIONS.json lists them with the
rules of spec/ they formalise. -/

open Sys2Proof Sys2Proof.Machine Sys2Proof.Safety

/-! ## Encoding -/

/-- The words of 95_test_vectors.md 2.7 that the spec writes out decode to what it says. -/
def Obligations.SampleWordsDecode : Prop :=
  decode 0x01A5 = .ok (.rxb 0xA5) ∧ decode 0x0200 = .ok .txp ∧
  decode 0x1000 = .ok (.encI8 0) ∧ decode 0x14FF = .ok (.encF32 255) ∧
  decode 0x1802 = .ok (.decI8 2) ∧ decode 0x1C00 = .ok (.decF32 0) ∧
  decode 0x0201 = .error (.reservedImm8 0x01) ∧ decode 0x0000 = .error (.reservedOpcode 0x00) ∧
  decode 0x1500 = .error (.reservedWidth 0x15) ∧ decode 0x1F10 = .error (.reservedWidth 0x1F) ∧
  decode 0xFFFF = .error (.reservedOpcode 0xFF)

/-- The complete opcode map (30_encoding.md R82), row by row, with IMM8 at every value. -/
def Obligations.OpcodeMapRows : Prop :=
  decode (wordOf 0x02 0x00) = .ok .txp ∧
  ∀ imm : Byte,
    decode (wordOf 0x01 imm) = .ok (.rxb imm) ∧
    decode (wordOf 0x10 imm) = .ok (.encI8 imm.toNat) ∧
    decode (wordOf 0x11 imm) = .ok (.encI16 imm.toNat) ∧
    decode (wordOf 0x12 imm) = .ok (.encI32 imm.toNat) ∧
    decode (wordOf 0x13 imm) = .ok (.encI64 imm.toNat) ∧
    decode (wordOf 0x14 imm) = .ok (.encF32 imm.toNat) ∧
    decode (wordOf 0x18 imm) = .ok (.decI8 imm.toNat) ∧
    decode (wordOf 0x19 imm) = .ok (.decI16 imm.toNat) ∧
    decode (wordOf 0x1A imm) = .ok (.decI32 imm.toNat) ∧
    decode (wordOf 0x1B imm) = .ok (.decI64 imm.toNat) ∧
    decode (wordOf 0x1C imm) = .ok (.decF32 imm.toNat)

/-- The illegal words are exactly those 30_encoding.md R85 lists; a request with one ends with
FAULT_ILLEGAL, and one with any other word never does. -/
def Obligations.IllegalWordsAreTheListed : Prop :=
  (∀ cw : Word, (∃ e, decode cw = .error e) ↔ ListedIllegal cw) ∧
  ∀ (s : State) (r : Request) (rest : List Request), s.requests = r :: rest →
    (ListedIllegal r.cw → ∃ t, step s = .next t ∧ Answered s .faultIllegal t) ∧
    (¬ ListedIllegal r.cw → ∀ t, step s = .next t → ¬ Answered s .faultIllegal t)

/-- Decoding the encoded word of a well-formed instruction gives it back, every operand included. -/
def Obligations.DecodeOfEncode : Prop :=
  ∀ i : Instr, WellFormed i → decode (encode i) = .ok i

/-- A word that decodes is the encoding of what it decodes to, which is well-formed: no two words share an
operation. -/
def Obligations.EncodeOfDecode : Prop :=
  ∀ (cw : Word) (i : Instr), decode cw = .ok i → WellFormed i ∧ encode i = cw

/-! ## The step -/

/-- A step runs the decoded instruction: whatever its meaning does to the state is the whole step. -/
def Obligations.StepRunsDecodedInstruction : Prop :=
  ∀ (s : State) (r : Request) (rest : List Request) (i : Instr),
    s.requests = r :: rest → decode r.cw = .ok i → step s = exec i s

/-- Every command word that 30_encoding.md R85 lists ends with FAULT_ILLEGAL; the RX context, tx_scratch and the
configuration are unchanged (60_exceptions.md R203). -/
def Obligations.IllegalWordTakesFault : Prop :=
  ∀ (s : State) (r : Request) (rest : List Request), s.requests = r :: rest → ListedIllegal r.cw →
    ∃ t, step s = .next t ∧ FaultTaken s (.illegal r.cw) .faultIllegal t

/-- With no request at the port the block is parked and its state held. That a step does nothing then is the
model's reading of R35 (log entry 6). -/
def Obligations.ParkedWithoutRequest : Prop :=
  ∀ s : State, s.requests = [] → step s = .next s

/-- Every request gets exactly one response and every operation completes (10_state.md R39), from every state
of the table of R31. -/
def Obligations.EveryRequestIsAnswered : Prop :=
  ∀ (s : State) (r : Request) (rest : List Request), RxTable s → s.requests = r :: rest →
    ∃ t x, step s = .next t ∧ t.requests = rest ∧ t.responses = s.responses ++ [x]

/-- However many steps follow, a response already given never changes (10_state.md R41). -/
def Obligations.ResponsesGivenNeverChange : Prop :=
  ∀ (k : Nat) (s t : State), core.run k s = .next t → ∃ later, t.responses = s.responses ++ later

/-- The status codes of 10_state.md R40, and that the reserved code 7 is no response's. -/
def Obligations.StatusCodesAsNumbered : Prop :=
  (∀ r : Response, statusCode (statusOf r) ≠ 7) ∧
  statusCode (statusOf .none) = 0 ∧ (∀ p, statusCode (statusOf (.valid p)) = 1) ∧
  statusCode (statusOf .rejected) = 2 ∧ (∀ f, statusCode (statusOf (.okFrame f)) = 3) ∧
  (∀ b, statusCode (statusOf (.okBuf b)) = 3) ∧ (∀ w v, statusCode (statusOf (.okValue w v)) = 3) ∧
  statusCode (statusOf .failLen) = 4 ∧ statusCode (statusOf .faultRange) = 5 ∧
  statusCode (statusOf .faultIllegal) = 6

/-! ## RXB -/

/-- RXB in SYNC (41_rx_framer.md R141). -/
def Obligations.RxbInSyncSeeksMagic : Prop :=
  ∀ (s : State) (b : Byte), s.rxState = .sync →
    ∃ t, exec (.rxb b) s = .next t ∧ Answered s .none t ∧ SameOutsideRx s t ∧
      (b = s.cfgMagic → t.rxState = .payloadLen ∧ t.rxCount = 0 ∧ t.rxLen = s.rxLen ∧
        t.rxPayload = s.rxPayload ∧ t.rxCks = s.rxCks) ∧
      (b ≠ s.cfgMagic → SameRx s t)

/-- RXB in PAYLOAD_LEN (41_rx_framer.md R142). -/
def Obligations.RxbInPayloadLenReadsLength : Prop :=
  ∀ (s : State) (b : Byte), s.rxState = .payloadLen →
    ∃ t, exec (.rxb b) s = .next t ∧ Answered s .none t ∧ SameOutsideRx s t ∧
      (1 ≤ b.toNat ∧ b.toNat ≤ 0x7F →
        t.rxState = .payload ∧ t.rxCount = 0 ∧ AllDead t.rxPayload ∧ t.rxCks = s.rxCks ∧
        ∃ len, t.rxLen = some len ∧ len.toNat = b.toNat) ∧
      (¬ (1 ≤ b.toNat ∧ b.toNat ≤ 0x7F) → RxReset t)

/-- RXB in PAYLOAD (41_rx_framer.md R143): the byte at rx_count is stored, every other byte is as before. -/
def Obligations.RxbInPayloadStoresByte : Prop :=
  ∀ (s : State) (b : Byte) (len : BitVec 7), s.rxState = .payload → s.rxLen = some len →
    s.rxCount.toNat < len.toNat →
    ∃ t, exec (.rxb b) s = .next t ∧ Answered s .none t ∧ SameOutsideRx s t ∧
      t.rxPayload.read s.rxCount.toNat = some b ∧
      (∀ a, a ≠ s.rxCount.toNat → t.rxPayload.read a = s.rxPayload.read a) ∧
      t.rxLen = some len ∧ t.rxCks = s.rxCks ∧
      (s.rxCount.toNat + 1 = len.toNat → t.rxState = .checksum ∧ t.rxCount = 0) ∧
      (s.rxCount.toNat + 1 ≠ len.toNat →
        t.rxState = .payload ∧ t.rxCount.toNat = s.rxCount.toNat + 1)

/-- RXB in CHECKSUM (41_rx_framer.md R144). Before the last trailer byte the byte at rx_count is stored and
every other byte is as before. At the last one, with p the payload held and rcv the trailer bytes held
before b: VALID(p) if the cascade of p equals the trailer byte for byte (R146), REJECTED if not, and SYNC
with the context reset in both cases. -/
def Obligations.RxbInChecksumStoresAndValidates : Prop :=
  (∀ (s : State) (b : Byte), s.rxState = .checksum → s.rxCount.toNat + 1 < s.cfgNck.toNat →
    ∃ t, exec (.rxb b) s = .next t ∧ Answered s .none t ∧ SameOutsideRx s t ∧
      t.rxCks.read s.rxCount.toNat = some b ∧
      (∀ a, a ≠ s.rxCount.toNat → t.rxCks.read a = s.rxCks.read a) ∧
      t.rxCount.toNat = s.rxCount.toNat + 1 ∧ t.rxState = .checksum ∧ t.rxLen = s.rxLen ∧
      t.rxPayload = s.rxPayload) ∧
  (∀ (s : State) (b : Byte) (len : BitVec 7) (p rcv : List Byte), s.rxState = .checksum →
    s.rxLen = some len → s.rxCount.toNat + 1 = s.cfgNck.toNat →
    p.length = len.toNat → (∀ i, i < len.toNat → s.rxPayload.read i = p[i]?) →
    rcv.length = s.rxCount.toNat → (∀ i, i < s.rxCount.toNat → s.rxCks.read i = rcv[i]?) →
    ∃ t, exec (.rxb b) s = .next t ∧ RxReset t ∧ SameOutsideRx s t ∧
      (cascade p s.cfgNck.toNat = rcv ++ [b] → Answered s (.valid p) t) ∧
      (cascade p s.cfgNck.toNat ≠ rcv ++ [b] → Answered s .rejected t))

/-- RXB has no failing case for any byte in any state of the table of R31, answers NONE, VALID or REJECTED,
and writes the RX context only (41_rx_framer.md R140). -/
def Obligations.RxbNeverFails : Prop :=
  ∀ (s : State) (b : Byte), RxTable s →
    ∃ t r, exec (.rxb b) s = .next t ∧ Answered s r t ∧ SameOutsideRx s t ∧
      (r = .none ∨ r = .rejected ∨ ∃ p, r = .valid p ∧ 1 ≤ p.length ∧ p.length ≤ 127)

/-- The frame of RXB, from every state: only the RX context changes, and in it at most one byte is stored
unless a buffer is discarded (20_memory.md R67, 41_rx_framer.md R140). -/
def Obligations.RxbFrame : Prop :=
  ∀ (s t : State) (b : Byte), exec (.rxb b) s = .next t →
    SameOutsideRx s t ∧
    (s.rxState = .sync →
      t.rxLen = s.rxLen ∧ t.rxPayload = s.rxPayload ∧ t.rxCks = s.rxCks) ∧
    (s.rxState = .payloadLen → t.rxState = .payload → t.rxCks = s.rxCks) ∧
    (s.rxState = .payload → t.rxLen = s.rxLen ∧ t.rxCks = s.rxCks ∧
      ∀ a, a ≠ s.rxCount.toNat → t.rxPayload.read a = s.rxPayload.read a) ∧
    (s.rxState = .checksum → t.rxState = .checksum → t.rxLen = s.rxLen ∧
      t.rxPayload = s.rxPayload ∧
      ∀ a, a ≠ s.rxCount.toNat → t.rxCks.read a = s.rxCks.read a)

/-- Every transition into SYNC resets the inbound context (41_rx_framer.md R145). -/
def Obligations.EnteringSyncResetsContext : Prop :=
  ∀ (s t : State) (b : Byte), exec (.rxb b) s = .next t → s.rxState ≠ .sync → t.rxState = .sync →
    RxReset t

/-- No rescanning (41_rx_framer.md R152): outside SYNC, what a byte does does not depend on MAGIC. -/
def Obligations.MagicIsReadInSyncOnly : Prop :=
  ∀ (s t : State) (b m : Byte), s.rxState ≠ .sync → exec (.rxb b) s = .next t →
    exec (.rxb b) { s with cfgMagic := m } = .next { t with cfgMagic := m }

/-! ## TXP and the cascade -/

/-- TXP (42_tx_checksum.md R180): FAIL_LEN above 127 bytes with nothing changed; otherwise the frame is
returned and stands in tx_scratch from byte 0, every later byte of tx_scratch being as before. -/
def Obligations.TxpPreparesFrame : Prop :=
  (∀ cw, opOf cw = 0x02 → imm8Of cw = 0x00 → decode cw = .ok .txp) ∧
  ∀ s : State,
    ((operandsOf s).payload.length > 127 →
      ∃ t, exec .txp s = .next t ∧ Answered s .failLen t ∧ SameBlock s t ∧ SameFaults s t) ∧
    ((operandsOf s).payload.length ≤ 127 →
      ∃ t frame, exec .txp s = .next t ∧ Answered s (.okFrame frame) t ∧
        frame = [s.cfgMagic, BitVec.ofNat 8 (operandsOf s).payload.length] ++
          (operandsOf s).payload ++ cascade (operandsOf s).payload s.cfgNck.toNat ∧
        frame.length = 2 + (operandsOf s).payload.length + s.cfgNck.toNat ∧
        (∀ a, a < frame.length → t.txScratch.read a = frame[a]?) ∧
        (∀ a, frame.length ≤ a → t.txScratch.read a = s.txScratch.read a) ∧
        SameCfg s t ∧ SameRx s t ∧ SameFaults s t)

/-- The layout of a frame, field by field (30_encoding.md R87). -/
def Obligations.FrameLayout : Prop :=
  ∀ (magic : Byte) (nck : Nck) (p : List Byte), p.length ≤ 127 →
    (frameOf magic nck p).length = 2 + p.length + nck.toNat ∧
    (frameOf magic nck p)[0]? = some magic ∧
    (∃ lb : Byte, (frameOf magic nck p)[1]? = some lb ∧ lb.toNat = p.length) ∧
    (∀ i, i < p.length → (frameOf magic nck p)[2 + i]? = p[i]?) ∧
    (∀ i, i < nck.toNat → (frameOf magic nck p)[2 + p.length + i]? = (cascade p nck.toNat)[i]?)

/-- An empty payload is framed as `[MAGIC, 0x00, 0x01, 0x00 × (NCK-1)]` (42_tx_checksum.md R182), and its frame
is not received: a receiver in SYNC fed the whole of it answers NONE to every byte. The length byte 0x00 brings
that receiver back to SYNC with the context reset, and the trailer is then scanned for MAGIC: with a MAGIC that
is neither 0x00 nor 0x01 nothing is found in it, while MAGIC 0x01 at the trailer's first byte (any NCK), and
MAGIC 0x00 at its second (NCK at least 2), start a false frame. -/
def Obligations.EmptyPayloadFrame : Prop :=
  (∀ (magic : Byte) (nck : Nck),
    frameOf magic nck [] = [magic, 0x00, 0x01] ++ List.replicate (nck.toNat - 1) 0x00) ∧
  (∀ s : State, (operandsOf s).payload = [] →
    ∃ t, exec .txp s = .next t ∧ Answered s (.okFrame (frameOf s.cfgMagic s.cfgNck [])) t) ∧
  ∀ s : State, s.rxState = .sync →
    (∃ t, Feeds s (frameOf s.cfgMagic s.cfgNck []) t ∧ SameOutsideRx s t ∧
      t.responses = s.responses ++ List.replicate (2 + s.cfgNck.toNat) .none ∧
      (s.cfgMagic ≠ 0x00 → s.cfgMagic ≠ 0x01 → RxReset t)) ∧
    (∃ t, Feeds s ((frameOf s.cfgMagic s.cfgNck []).take 2) t ∧ RxReset t ∧
      t.responses = s.responses ++ [.none, .none]) ∧
    (s.cfgMagic = 0x01 →
      ∃ t, Feeds s ((frameOf s.cfgMagic s.cfgNck []).take 3) t ∧ t.rxState = .payloadLen) ∧
    (s.cfgMagic = 0x00 → 2 ≤ s.cfgNck.toNat →
      ∃ t, Feeds s ((frameOf s.cfgMagic s.cfgNck []).take 4) t ∧ t.rxState = .payloadLen)

/-- The closed form of the cascade (42_tx_checksum.md R172). With 0-based i, the rule's L - i is
`p.length - 1 - i`. -/
def Obligations.CascadeClosedForm : Prop :=
  ∀ (p : List Byte) (n c : Nat), c < n →
    (cascade p n)[c]? = some (BitVec.ofNat 8
      ((if c = 0 then 1 else Nat.choose (p.length + c - 1) c) +
        ∑ i ∈ Finset.range p.length,
          Nat.choose (p.length - 1 - i + c) c * (p.getD i 0).toNat))

/-- The structural laws of the cascade (42_tx_checksum.md R173). -/
def Obligations.CascadeStructure : Prop :=
  (∀ (p : List Byte) (m n : Nat), 1 ≤ m → m ≤ n → (cascade p n).take m = cascade p m) ∧
  (∀ p : List Byte, cascade p 1 = [BitVec.ofNat 8 (1 + (p.map BitVec.toNat).sum)]) ∧
  (∀ n : Nat, 1 ≤ n → cascade [] n = 0x01 :: List.replicate (n - 1) 0x00) ∧
  (∀ l : Nat, cascade (List.replicate l 0x00) 2 = [0x01, BitVec.ofNat 8 l])

/-- The detection laws of the cascade (42_tx_checksum.md R174): a change of one byte changes level 0; swapping
two adjacent bytes that differ changes level 1; swapping at distance i - j changes level 1 by that
distance times the bytes' difference, which the example shows can be 0 at N = 2 and be seen at N = 3. -/
def Obligations.CascadeDetection : Prop :=
  (∀ (p : List Byte) (n i : Nat) (x : Byte), 1 ≤ n → i < p.length → p[i]? ≠ some x →
    (cascade (p.set i x) n)[0]? ≠ (cascade p n)[0]?) ∧
  (∀ (p : List Byte) (n i : Nat) (x y : Byte), 2 ≤ n → p[i]? = some x → p[i + 1]? = some y → x ≠ y →
    ∃ u v, (cascade p n)[1]? = some u ∧ (cascade ((p.set i y).set (i + 1) x) n)[1]? = some v ∧
      v = u + (y - x) ∧ v ≠ u) ∧
  (∀ (p : List Byte) (n j i : Nat) (x y : Byte), 2 ≤ n → j < i → p[j]? = some x → p[i]? = some y →
    ∃ u v, (cascade p n)[1]? = some u ∧ (cascade ((p.set j y).set i x) n)[1]? = some v ∧
      v = u + BitVec.ofNat 8 (i - j) * (y - x)) ∧
  cascade [0x00, 0x05, 0x80] 2 = [0x86, 0x8D] ∧ cascade [0x80, 0x05, 0x00] 2 = [0x86, 0x8D] ∧
  cascade [0x00, 0x05, 0x80] 3 = [0x86, 0x8D, 0x95] ∧
  cascade [0x80, 0x05, 0x00] 3 = [0x86, 0x8D, 0x15]

/-! ## The codec -/

/-- ENC.I8 (40_codec.md R115), on patterns; the byte order has no effect. What integer a pattern stands for is
Obligations.SignedReadingOfPattern's. -/
def Obligations.EncI8Behaviour : Prop :=
  EncodeBehaviour .encI8 0x10 8 Operands.valueI8 ∧
  ∀ (s : State) (off : Nat), off + 1 ≤ (operandsOf s).buf.length →
    ∃ t, exec (.encI8 off) s = .next t ∧
      Answered s (.okBuf ((operandsOf s).buf.set off (operandsOf s).valueI8)) t

/-- ENC.I16 (40_codec.md R116), on patterns. -/
def Obligations.EncI16Behaviour : Prop := EncodeBehaviour .encI16 0x11 16 Operands.valueI16

/-- ENC.I32 (40_codec.md R117), on patterns. -/
def Obligations.EncI32Behaviour : Prop := EncodeBehaviour .encI32 0x12 32 Operands.valueI32

/-- ENC.I64 (40_codec.md R118), on patterns. -/
def Obligations.EncI64Behaviour : Prop := EncodeBehaviour .encI64 0x13 64 Operands.valueI64

/-- ENC.F32 (40_codec.md R119), bit-identical to ENC.I32 on an equal pattern. -/
def Obligations.EncF32Behaviour : Prop :=
  EncodeBehaviour .encF32 0x14 32 Operands.valueF32 ∧
  ∀ (s : State) (off : Nat), (operandsOf s).valueF32 = (operandsOf s).valueI32 →
    exec (.encF32 off) s = exec (.encI32 off) s

/-- DEC.I8 (40_codec.md R120): the value is buf[off], as a pattern. -/
def Obligations.DecI8Behaviour : Prop :=
  DecodeBehaviour .decI8 0x18 8 ∧
  ∀ (s : State) (off : Nat) (b : Byte), (operandsOf s).buf[off]? = some b →
    ∃ t, exec (.decI8 off) s = .next t ∧ Answered s (.okValue 8 b) t

/-- DEC.I16 (40_codec.md R121), on patterns. -/
def Obligations.DecI16Behaviour : Prop := DecodeBehaviour .decI16 0x19 16

/-- DEC.I32 (40_codec.md R122), on patterns. -/
def Obligations.DecI32Behaviour : Prop := DecodeBehaviour .decI32 0x1A 32

/-- DEC.I64 (40_codec.md R123), on patterns. -/
def Obligations.DecI64Behaviour : Prop := DecodeBehaviour .decI64 0x1B 64

/-- DEC.F32 (40_codec.md R124), bit-identical to DEC.I32. -/
def Obligations.DecF32Behaviour : Prop :=
  DecodeBehaviour .decF32 0x1C 32 ∧
  ∀ (s : State) (off : Nat), exec (.decF32 off) s = exec (.decI32 off) s

/-- All ten codec operations are stateless (40_codec.md R110): from every state, faulting or not, they complete
and write no block state, and their response depends on CFG_ORDER and the operands alone. -/
def Obligations.CodecIsStateless : Prop :=
  (∀ (i : Instr) (s : State), IsCodec i → ∃ t, exec i s = .next t ∧ SameBlock s t) ∧
  ∀ (i : Instr) (s t : State), IsCodec i → s.cfgOrder = t.cfgOrder → operandsOf s = operandsOf t →
    ∃ s' t' r, exec i s = .next s' ∧ exec i t = .next t' ∧ Answered s r s' ∧ Answered t r t'

/-- The round-trip law (40_codec.md R125), both halves. -/
def Obligations.CodecRoundTrip : Prop :=
  ∀ (order : ByteOrder) (w : Nat) (buf : List Byte) (off : Nat), CodecWidth w →
    off + w / 8 ≤ buf.length →
    (∀ v : BitVec w, decodeBuf order w (encodeBuf order w buf off v) off = v) ∧
    encodeBuf order w buf off (decodeBuf order w buf off) = buf

/-- Mixed-width access (20_memory.md R65): for every pair of codec widths and every pair of offsets in range,
each byte of what the decode reads is the byte that stands there, which is a byte of the encoded value's image
where the two ranges overlap and a byte of the buffer before elsewhere. Then the same for a 32-bit value read
back at 16 bits at each offset inside it and at 8 bits at each, in its bits, and the rule's example. -/
def Obligations.MixedWidthReads : Prop :=
  (∀ (order : ByteOrder) (w w' : Nat) (buf : List Byte) (off off' : Nat) (v : BitVec w),
    CodecWidth w → CodecWidth w' → off + w / 8 ≤ buf.length → off' + w' / 8 ≤ buf.length →
    ∀ k, k < w' / 8 →
      (off ≤ off' + k → off' + k < off + w / 8 →
        imageByte order w' (decodeBuf order w' (encodeBuf order w buf off v) off') k =
          imageByte order w v (off' + k - off)) ∧
      (off' + k < off ∨ off + w / 8 ≤ off' + k →
        some (imageByte order w' (decodeBuf order w' (encodeBuf order w buf off v) off') k) =
          buf[off' + k]?)) ∧
  (∀ (buf : List Byte) (off : Nat) (v : BitVec 32), off + 4 ≤ buf.length →
    (∀ j, j ≤ 2 →
      decodeBuf .le 16 (encodeBuf .le 32 buf off v) (off + j) = v.extractLsb' (8 * j) 16 ∧
      decodeBuf .be 16 (encodeBuf .be 32 buf off v) (off + j) = v.extractLsb' (16 - 8 * j) 16) ∧
    ∀ j, j ≤ 3 →
      decodeBuf .le 8 (encodeBuf .le 32 buf off v) (off + j) = v.extractLsb' (8 * j) 8 ∧
      decodeBuf .be 8 (encodeBuf .be 32 buf off v) (off + j) = v.extractLsb' (24 - 8 * j) 8) ∧
  ∀ buf : List Byte, 4 ≤ buf.length →
    decodeBuf .le 16 (encodeBuf .le 32 buf 0 0x11223344) 0 = 0x3344 ∧
    decodeBuf .le 16 (encodeBuf .le 32 buf 0 0x11223344) 2 = 0x1122

/-- With mismatched orders a value decodes with its bytes reversed (20_memory.md R64). -/
def Obligations.MismatchedOrderReversesBytes : Prop :=
  ∀ (w : Nat) (buf : List Byte) (off : Nat) (v : BitVec w), CodecWidth w → off + w / 8 ≤ buf.length →
    ∀ k, k < w / 8 →
      (decodeBuf .be w (encodeBuf .le w buf off v) off).extractLsb' (8 * k) 8 =
        v.extractLsb' (w - 8 - 8 * k) 8 ∧
      (decodeBuf .le w (encodeBuf .be w buf off v) off).extractLsb' (8 * k) 8 =
        v.extractLsb' (w - 8 - 8 * k) 8

/-- The signed reading of a pattern: the pattern that presents x reads as x (40_codec.md R114, 00_scope.md
R11), with the integers of the corner cases of R115 to R123. That it is two's complement is the spec's own
general knowledge (G1; log entry 9), not the source's. -/
def Obligations.SignedReadingOfPattern : Prop :=
  (∀ (w : Nat) (x : Int), 1 ≤ w → -(2 ^ (w - 1)) ≤ x → x < 2 ^ (w - 1) →
    sintOf w (patternOfInt w x) = x) ∧
  sintOf 8 0x80 = -128 ∧ sintOf 8 0xFF = -1 ∧ sintOf 16 0x8000 = -32768 ∧ sintOf 16 0xFF7F = -129 ∧
  sintOf 32 0xFFFFFFFE = -2 ∧ sintOf 32 0x00018BCD = 101325 ∧
  sintOf 64 0x7FFFFFFFFFFFFFFF = 2 ^ 63 - 1 ∧ sintOf 64 0x8000000000000000 = -(2 ^ 63)

/-! ## Faults, configuration, construction, invariants -/

/-- fault_mark (10_state.md R33): empty after every construction; a fault response adds its reason and nothing
else adds one; nothing removes one. -/
def Obligations.FaultMarkIsSticky : Prop :=
  (∀ (magic : Byte) (nck : Nck) (order : ByteOrder) (q : FaultReason),
    (State.initial magic nck order).faultMark.has q = false) ∧
  ∀ (s t : State) (q : FaultReason), step s = .next t →
    (s.faultMark.has q = true → t.faultMark.has q = true) ∧
    (∀ x, t.responses = s.responses ++ [x] → statusCode (statusOf x) = faultCode q →
      t.faultMark.has q = true) ∧
    (s.faultMark.has q = false → t.faultMark.has q = true →
      ∃ x, t.responses = s.responses ++ [x] ∧ statusCode (statusOf x) = faultCode q)

/-- The four outcomes of the source's error taxonomy, their responses and state effects; none is recorded in
fault_mark (60_exceptions.md R204). -/
def Obligations.TaxonomyOutcomesAreNoFaults : Prop :=
  (∀ (s : State) (b : Byte), s.rxState = .sync → b ≠ s.cfgMagic →
    ∃ t, exec (.rxb b) s = .next t ∧ Answered s .none t ∧ SameBlock s t ∧ SameFaults s t) ∧
  (∀ (s : State) (b : Byte), s.rxState = .payloadLen → b.toNat = 0 ∨ 0x80 ≤ b.toNat →
    ∃ t, exec (.rxb b) s = .next t ∧ Answered s .none t ∧ RxReset t ∧ SameOutsideRx s t) ∧
  (∀ (s t : State) (b : Byte), exec (.rxb b) s = .next t → Answered s .rejected t →
    RxReset t ∧ SameOutsideRx s t) ∧
  (∀ s : State, 127 < (operandsOf s).payload.length →
    ∃ t, exec .txp s = .next t ∧ Answered s .failLen t ∧ SameBlock s t ∧ SameFaults s t)

/-- The configuration registers are never written by any step (10_state.md R23). -/
def Obligations.ConfigurationIsNeverWritten : Prop :=
  ∀ s t : State, step s = .next t → SameCfg s t

/-- Construction (70_reset_and_hazards.md R230, 10_state.md R43, 00_scope.md R9): with NCK in 1..127 the reset state with the three arguments,
otherwise refused. -/
def Obligations.ConstructionGivesResetState : Prop :=
  ∀ (magic : Byte) (nck : Nat) (order : ByteOrder),
    (1 ≤ nck ∧ nck ≤ 127 →
      ∃ s, State.construct magic nck order = .ok s ∧ s.cfgMagic = magic ∧ s.cfgNck.toNat = nck ∧
        s.cfgOrder = order ∧ s.rxState = .sync ∧ s.rxCount = 0 ∧ s.rxLen = none ∧
        AllDead s.rxPayload ∧ AllDead s.rxCks ∧ AllDead s.txScratch ∧
        (∀ q, s.faultMark.has q = false)) ∧
    (¬ (1 ≤ nck ∧ nck ≤ 127) → State.construct magic nck order = .error (.notAnInstance nck))

/-- State.reset is what a construction with the opaque MAGIC and NCK of Config (log entry 1, the model's
choice) and the default order gives. -/
def Obligations.ResetIsAConstruction : Prop :=
  State.construct Config.magic Config.nck.toNat = .ok State.reset

/-- The invariant holds after every construction. -/
def Obligations.ConstructionEstablishesInvariant : Prop :=
  ∀ (magic : Byte) (nck : Nat) (order : ByteOrder) (s : State),
    State.construct magic nck order = .ok s → Inv s

/-- Every operation preserves the table of 10_state.md R31, and every step keeps the whole invariant: that
table, the form of tx_scratch (no byte beyond the 256 of R29), and fault_mark holding exactly the reasons
recorded. -/
def Obligations.StepKeepsInvariant : Prop :=
  (∀ s t : State, RxTable s → step s = .next t → RxTable t) ∧
  ∀ s t : State, Inv s → step s = .next t → Inv t

/-- From a state of the invariant a step never stops: no DEAD element is read and no byte outside a buffer is
reached (00_scope.md R12, 10_state.md R26 to R28). -/
def Obligations.NoStepStops : Prop :=
  ∀ (k : Nat) (s : State), Inv s → ∃ t, core.run k s = .next t ∧ Inv t

/-- Every step keeps every storage space in its canonical form, from every state. -/
def Obligations.StepKeepsMemoryCanonical : Prop :=
  ∀ s t : State, s.rxPayload.wf → s.rxCks.wf → s.txScratch.wf → step s = .next t →
    t.rxPayload.wf ∧ t.rxCks.wf ∧ t.txScratch.wf

/-! ## The protocol, over byte sequences -/

/-- Noise law (41_rx_framer.md R147). -/
def Obligations.NoiseLaw : Prop :=
  ∀ (s : State) (bs : List Byte), s.rxState = .sync → (∀ b ∈ bs, b ≠ s.cfgMagic) →
    Feeds s bs { s with responses := s.responses ++ List.replicate bs.length .none }

/-- Acceptance law (41_rx_framer.md R148), from every state in SYNC: nothing but the RX context, reset, and
the responses differs at the end. -/
def Obligations.AcceptanceLaw : Prop :=
  ∀ (s : State) (p : List Byte), s.rxState = .sync → 1 ≤ p.length → p.length ≤ 127 →
    Feeds s (frameOf s.cfgMagic s.cfgNck p)
      (enterSync { s with
        responses := s.responses ++ frameResponses (frameOf s.cfgMagic s.cfgNck p) (.valid p) })

/-- Pipelining law (41_rx_framer.md R149), for any number of frames. -/
def Obligations.PipeliningLaw : Prop :=
  ∀ (s : State) (ps : List (List Byte)), RxReset s → (∀ p ∈ ps, 1 ≤ p.length ∧ p.length ≤ 127) →
    Feeds s (ps.flatMap (frameOf s.cfgMagic s.cfgNck))
      { s with
        responses := s.responses ++
          ps.flatMap (fun p => frameResponses (frameOf s.cfgMagic s.cfgNck p) (.valid p)) }

/-- Corruption law (41_rx_framer.md R150). -/
def Obligations.CorruptionLaw : Prop :=
  ∀ (s : State) (p : List Byte) (i : Nat) (x : Byte), s.rxState = .sync → 1 ≤ p.length →
    p.length ≤ 127 → 2 ≤ i → i < (frameOf s.cfgMagic s.cfgNck p).length →
    (frameOf s.cfgMagic s.cfgNck p)[i]? ≠ some x →
    Feeds s ((frameOf s.cfgMagic s.cfgNck p).set i x)
      (enterSync { s with
        responses := s.responses ++ frameResponses (frameOf s.cfgMagic s.cfgNck p) .rejected })

/-- Bounded resynchronisation (41_rx_framer.md R151): whatever 255 bytes follow, after some number of them the
machine is in SYNC (fewer than 255 from PAYLOAD and CHECKSUM), and there a MAGIC byte starts a new frame. -/
def Obligations.BoundedResynchronisation : Prop :=
  ∀ (s : State) (bs : List Byte), RxTable s → bs.length = 255 →
    ∃ k t, k ≤ 255 ∧ (s.rxState ≠ .payloadLen → k ≤ 254) ∧ Feeds s (bs.take k) t ∧
      t.rxState = .sync ∧ ∃ u, Feeds t [t.cfgMagic] u ∧ u.rxState = .payloadLen

/-- Flushing (70_reset_and_hazards.md R232): 255 bytes none equal to MAGIC bring any receiver back to SYNC. -/
def Obligations.FlushReturnsToSync : Prop :=
  ∀ (s : State) (bs : List Byte), RxTable s → bs.length = 255 → (∀ b ∈ bs, b ≠ s.cfgMagic) →
    ∃ t, Feeds s bs t ∧ RxReset t

/-- TX-to-RX law (42_tx_checksum.md R183): the frame TXP returns on one instance, fed to another of equal
MAGIC and NCK in SYNC, yields the payload on its last byte. -/
def Obligations.TransmittedFrameIsReceived : Prop :=
  ∀ tx rx : State, tx.cfgMagic = rx.cfgMagic → tx.cfgNck = rx.cfgNck → rx.rxState = .sync →
    1 ≤ (operandsOf tx).payload.length → (operandsOf tx).payload.length ≤ 127 →
    ∃ t frame u, exec .txp tx = .next t ∧ Answered tx (.okFrame frame) t ∧
      Feeds rx frame u ∧ RxReset u ∧
      u.responses = rx.responses ++ frameResponses frame (.valid (operandsOf tx).payload)

/-- The RX context is hidden state (10_state.md R32): two states with the same context and the same MAGIC and
NCK give the same responses to every byte sequence, whatever their byte order, tx_scratch and fault record. -/
def Obligations.ResponsesDependOnRxContextOnly : Prop :=
  ∀ (s t s' t' : State) (bs : List Byte), SameRx s t → s.cfgMagic = t.cfgMagic →
    s.cfgNck = t.cfgNck → Feeds s bs s' → Feeds t bs t' →
    SameRx s' t' ∧ ∃ rs, s'.responses = s.responses ++ rs ∧ t'.responses = t.responses ++ rs

/-- Moving a TXP or codec operation past an RXB changes no response and no other state (20_memory.md R74). -/
def Obligations.UnitsAreIndependent : Prop :=
  ∀ (s t : State) (b : Byte) (q : Request) (rest : List Request) (i : Instr),
    decode q.cw = .ok i → (∀ c, i ≠ .rxb c) →
    core.run 2 { s with requests := asmRxb b :: q :: rest } = .next t →
    ∃ t' x y, core.run 2 { s with requests := q :: asmRxb b :: rest } = .next t' ∧
      t.responses = s.responses ++ [x, y] ∧ t'.responses = s.responses ++ [y, x] ∧
      ({ t with responses := [] } : State) = { t' with responses := [] }

/-- Idempotence (20_memory.md R69): repeating an encode on the buffer it returned changes nothing more, and
TXP's response depends on the payload, MAGIC and NCK alone. -/
def Obligations.EncodeIsIdempotentAndTxpDeterministic : Prop :=
  (∀ (order : ByteOrder) (w : Nat) (buf : List Byte) (off : Nat) (v : BitVec w), CodecWidth w →
    off + w / 8 ≤ buf.length →
    encodeBuf order w (encodeBuf order w buf off v) off v = encodeBuf order w buf off v) ∧
  ∀ s t : State, s.cfgMagic = t.cfgMagic → s.cfgNck = t.cfgNck →
    (operandsOf s).payload = (operandsOf t).payload →
    ∃ s' t' r, exec .txp s = .next s' ∧ exec .txp t = .next t' ∧ Answered s r s' ∧ Answered t r t'
end

