-- ==== Sys2Proof/Laws/State.lean ====
section
/-! SUPPORT. One lemma per field for each shared update of the state, so that no proof unfolds an update. -/

namespace Sys2Proof.Machine

@[simp] theorem respond_cfgMagic (r : Response) (s : State) :
    (respond r s).cfgMagic = s.cfgMagic := rfl

@[simp] theorem respond_cfgNck (r : Response) (s : State) :
    (respond r s).cfgNck = s.cfgNck := rfl

@[simp] theorem respond_cfgOrder (r : Response) (s : State) :
    (respond r s).cfgOrder = s.cfgOrder := rfl

@[simp] theorem respond_rxState (r : Response) (s : State) :
    (respond r s).rxState = s.rxState := rfl

@[simp] theorem respond_rxCount (r : Response) (s : State) :
    (respond r s).rxCount = s.rxCount := rfl

@[simp] theorem respond_rxLen (r : Response) (s : State) :
    (respond r s).rxLen = s.rxLen := rfl

@[simp] theorem respond_rxPayload (r : Response) (s : State) :
    (respond r s).rxPayload = s.rxPayload := rfl

@[simp] theorem respond_rxCks (r : Response) (s : State) :
    (respond r s).rxCks = s.rxCks := rfl

@[simp] theorem respond_txScratch (r : Response) (s : State) :
    (respond r s).txScratch = s.txScratch := rfl

@[simp] theorem respond_faultMark (r : Response) (s : State) :
    (respond r s).faultMark = s.faultMark := rfl

@[simp] theorem respond_faultInfo (r : Response) (s : State) :
    (respond r s).faultInfo = s.faultInfo := rfl

@[simp] theorem respond_requests (r : Response) (s : State) :
    (respond r s).requests = s.requests.tail := rfl

@[simp] theorem respond_responses (r : Response) (s : State) :
    (respond r s).responses = s.responses ++ [r] := rfl

@[simp] theorem raiseFault_cfgMagic (f : FaultInfo) (s : State) :
    (raiseFault f s).cfgMagic = s.cfgMagic := rfl

@[simp] theorem raiseFault_cfgNck (f : FaultInfo) (s : State) :
    (raiseFault f s).cfgNck = s.cfgNck := rfl

@[simp] theorem raiseFault_cfgOrder (f : FaultInfo) (s : State) :
    (raiseFault f s).cfgOrder = s.cfgOrder := rfl

@[simp] theorem raiseFault_rxState (f : FaultInfo) (s : State) :
    (raiseFault f s).rxState = s.rxState := rfl

@[simp] theorem raiseFault_rxCount (f : FaultInfo) (s : State) :
    (raiseFault f s).rxCount = s.rxCount := rfl

@[simp] theorem raiseFault_rxLen (f : FaultInfo) (s : State) :
    (raiseFault f s).rxLen = s.rxLen := rfl

@[simp] theorem raiseFault_rxPayload (f : FaultInfo) (s : State) :
    (raiseFault f s).rxPayload = s.rxPayload := rfl

@[simp] theorem raiseFault_rxCks (f : FaultInfo) (s : State) :
    (raiseFault f s).rxCks = s.rxCks := rfl

@[simp] theorem raiseFault_txScratch (f : FaultInfo) (s : State) :
    (raiseFault f s).txScratch = s.txScratch := rfl

@[simp] theorem raiseFault_faultMark (f : FaultInfo) (s : State) :
    (raiseFault f s).faultMark = s.faultMark.add (reasonOf f) := rfl

@[simp] theorem raiseFault_faultInfo (f : FaultInfo) (s : State) :
    (raiseFault f s).faultInfo = s.faultInfo ++ [f] := rfl

@[simp] theorem raiseFault_requests (f : FaultInfo) (s : State) :
    (raiseFault f s).requests = s.requests.tail := rfl

@[simp] theorem raiseFault_responses (f : FaultInfo) (s : State) :
    (raiseFault f s).responses = s.responses ++ [faultResponse f] := rfl

@[simp] theorem enterSync_cfgMagic  (s : State) :
    (enterSync s).cfgMagic = s.cfgMagic := rfl

@[simp] theorem enterSync_cfgNck  (s : State) :
    (enterSync s).cfgNck = s.cfgNck := rfl

@[simp] theorem enterSync_cfgOrder  (s : State) :
    (enterSync s).cfgOrder = s.cfgOrder := rfl

@[simp] theorem enterSync_rxState  (s : State) :
    (enterSync s).rxState = .sync := rfl

@[simp] theorem enterSync_rxCount  (s : State) :
    (enterSync s).rxCount = 0 := rfl

@[simp] theorem enterSync_rxLen  (s : State) :
    (enterSync s).rxLen = none := rfl

@[simp] theorem enterSync_rxPayload  (s : State) :
    (enterSync s).rxPayload = [] := rfl

@[simp] theorem enterSync_rxCks  (s : State) :
    (enterSync s).rxCks = [] := rfl

@[simp] theorem enterSync_txScratch  (s : State) :
    (enterSync s).txScratch = s.txScratch := rfl

@[simp] theorem enterSync_faultMark  (s : State) :
    (enterSync s).faultMark = s.faultMark := rfl

@[simp] theorem enterSync_faultInfo  (s : State) :
    (enterSync s).faultInfo = s.faultInfo := rfl

@[simp] theorem enterSync_requests  (s : State) :
    (enterSync s).requests = s.requests := rfl

@[simp] theorem enterSync_responses  (s : State) :
    (enterSync s).responses = s.responses := rfl

@[simp] theorem operandsOf_cons (s : State) (r : Request) (rest : List Request) (h : s.requests = r :: rest) :
    operandsOf s = r.operands := by
  simp [operandsOf, h]

@[simp] theorem pendingWord_cons (s : State) (r : Request) (rest : List Request) (h : s.requests = r :: rest) :
    pendingWord s = some r.cw := by
  simp [pendingWord, h]

@[simp] theorem FaultMark.has_add (m : FaultMark) (r q : FaultReason) :
    (m.add r).has q = (m.has q || decide (q = r)) := by
  cases r <;> cases q <;> simp [FaultMark.add, FaultMark.has]

end Sys2Proof.Machine
end

