-- ==== Sys2Proof/Laws/Codec.lean ====
section
/-! SUPPORT. The laws of the codec's operations: sizes, what a written buffer reads as byte by byte, what a
pattern's bits are, and the two outcomes of a codec operation. -/

namespace Sys2Proof.Machine

@[simp] theorem bytesOf_length (o : ByteOrder) (w : Nat) (v : BitVec w) : (bytesOf o w v).length = w / 8 := by
  simp [bytesOf]

theorem bytesOf_getElem? (o : ByteOrder) (w : Nat) (v : BitVec w) (k : Nat) (h : k < w / 8) :
    (bytesOf o w v)[k]? = some (imageByte o w v k) := by
  simp [bytesOf, h]

theorem memWrite_length (buf : List Byte) (off : Nat) (s : List Byte) (h : off + s.length ≤ buf.length) :
    (memWrite buf off s).length = buf.length := by
  simp [memWrite]; omega

theorem memWrite_getElem?_inside (buf : List Byte) (off : Nat) (s : List Byte) (k : Nat)
    (h : off + s.length ≤ buf.length) (hk : k < s.length) : (memWrite buf off s)[off + k]? = s[k]? := by
  have h1 : (buf.take off).length = off := by simp; omega
  rw [memWrite, List.append_assoc, List.getElem?_append_right (by omega), h1, Nat.add_sub_cancel_left,
    List.getElem?_append_left hk]

theorem memWrite_getElem?_outside (buf : List Byte) (off : Nat) (s : List Byte) (j : Nat)
    (h : off + s.length ≤ buf.length) (hj : j < off ∨ off + s.length ≤ j) :
    (memWrite buf off s)[j]? = buf[j]? := by
  have h1 : (buf.take off).length = off := by simp; omega
  rcases hj with hj | hj
  · rw [memWrite, List.append_assoc, List.getElem?_append_left (by omega), List.getElem?_take_of_lt hj]
  · rw [memWrite, List.append_assoc, List.getElem?_append_right (by omega), h1,
      List.getElem?_append_right (by omega), List.getElem?_drop]
    congr 1; omega

theorem memRead_getElem? (buf : List Byte) (off n k : Nat) (hk : k < n) :
    (memRead buf off n)[k]? = buf[off + k]? := by
  rw [memRead, List.getElem?_take_of_lt hk, List.getElem?_drop]

theorem memRead_length (buf : List Byte) (off n : Nat) (h : off + n ≤ buf.length) :
    (memRead buf off n).length = n := by
  simp [memRead]; omega

/-- The bits of a concatenation of bytes: bit i is bit i mod 8 of byte i / 8. -/
theorem concatBytes_getLsbD (w : Nat) (s : List Byte) (i : Nat) :
    (concatBytes w s).getLsbD i = (decide (i < w) && ((s[i / 8]?).getD 0).getLsbD (i % 8)) := by
  induction s generalizing i with
  | nil => simp [concatBytes]
  | cons b rest ih =>
    simp only [concatBytes, BitVec.getLsbD_or, BitVec.getLsbD_shiftLeft, BitVec.getLsbD_setWidth, ih]
    by_cases hw : i < w
    · by_cases h8 : i < 8
      · have h1 : i / 8 = 0 := by omega
        have h2 : i % 8 = i := by omega
        simp [hw, h8, h1, h2]
      · have h1 : i / 8 = (i - 8) / 8 + 1 := by omega
        have h2 : i % 8 = (i - 8) % 8 := by omega
        have h3 : i - 8 < w := by omega
        have h4 : b.getLsbD i = false := BitVec.getLsbD_of_ge _ _ (by omega)
        simp [hw, h8, h1, h2, h3, h4]
    · simp [hw]

/-- What a decoded pattern's bytes are: byte k of its image is byte k of the sequence, in either order. -/
theorem imageByte_patternOf (o : ByteOrder) (n : Nat) (s : List Byte) (k : Nat) (hs : s.length = n)
    (hk : k < n) : some (imageByte o (8 * n) (patternOf o (8 * n) s) k) = s[k]? := by
  have hkl : k < s.length := by omega
  rw [List.getElem?_eq_getElem hkl]
  congr 1
  cases o with
  | le =>
    apply BitVec.eq_of_getLsbD_eq
    intro j hj
    have h1 : (8 * k + j) / 8 = k := by omega
    have h2 : (8 * k + j) % 8 = j := by omega
    have h3 : 8 * k + j < 8 * n := by omega
    simp only [imageByte, patternOf, BitVec.getLsbD_extractLsb', concatBytes_getLsbD, h1, h2, h3, hj,
      List.getElem?_eq_getElem hkl, decide_true, Bool.true_and, Option.getD_some]
  | be =>
    apply BitVec.eq_of_getLsbD_eq
    intro j hj
    have h1 : (8 * n - 8 - 8 * k + j) / 8 = n - 1 - k := by omega
    have h2 : (8 * n - 8 - 8 * k + j) % 8 = j := by omega
    have h3 : 8 * n - 8 - 8 * k + j < 8 * n := by omega
    have h4 : n - 1 - k < s.reverse.length := by simp; omega
    have h5 : s.length - 1 - (n - 1 - k) = k := by omega
    simp only [imageByte, patternOf, BitVec.getLsbD_extractLsb', concatBytes_getLsbD, h1, h2, h3, hj,
      List.getElem?_eq_getElem h4, List.getElem_reverse, h5, decide_true, Bool.true_and, Option.getD_some]

/-- The two outcomes of a codec encode. -/
theorem codecEncode_cases (w off : Nat) (v : BitVec w) (s : State) :
    (off + w / 8 ≤ (operandsOf s).buf.length ∧
      codecEncode w off v s =
        respond (.okBuf (encodeBuf s.cfgOrder w (operandsOf s).buf off v)) s) ∨
    ((operandsOf s).buf.length < off + w / 8 ∧
      codecEncode w off v s = raiseFault (.range off (w / 8) (operandsOf s).buf.length) s) := by
  unfold codecEncode inRange
  by_cases h : off + w / 8 ≤ (operandsOf s).buf.length
  · left; simp [h]
  · right; simp [h]; omega

/-- The two outcomes of a codec decode. -/
theorem codecDecode_cases (w off : Nat) (s : State) :
    (off + w / 8 ≤ (operandsOf s).buf.length ∧
      codecDecode w off s =
        respond (.okValue w (decodeBuf s.cfgOrder w (operandsOf s).buf off)) s) ∨
    ((operandsOf s).buf.length < off + w / 8 ∧
      codecDecode w off s = raiseFault (.range off (w / 8) (operandsOf s).buf.length) s) := by
  unfold codecDecode inRange
  by_cases h : off + w / 8 ≤ (operandsOf s).buf.length
  · left; simp [h]
  · right; simp [h]; omega

end Sys2Proof.Machine
end

