-- ==== Sys2Proof/Laws/Memory.lean ====
section
/-! SUPPORT. The laws of a storage space: a read after a write, every operation keeps the canonical form, and
what a run of bytes written reads as. -/

namespace Sys2Proof.Machine

@[simp] theorem Memory.read_nil (a : Nat) : Memory.read [] a = none := rfl

@[simp] theorem Memory.read_write_same (m : Memory) (a : Nat) (b : Byte) : (m.write a b).read a = some b := by
  induction m with
  | nil => simp [Memory.write, Memory.read]
  | cons c rest ih =>
    obtain ⟨k, v⟩ := c
    simp only [Memory.write]
    split
    · simp [Memory.read]
    · split
      · simp [Memory.read]
      · rename_i h
        simp [Memory.read, h, ih]

theorem Memory.read_write_other (m : Memory) (a c : Nat) (b : Byte) (h : c ≠ a) :
    (m.write a b).read c = m.read c := by
  induction m with
  | nil => simp [Memory.write, Memory.read, h]
  | cons x rest ih =>
    obtain ⟨k, v⟩ := x
    simp only [Memory.write]
    split
    · simp [Memory.read, h]
    · split
      · rename_i hk
        subst hk
        simp [Memory.read, h]
      · simp [Memory.read, ih]

theorem Memory.keys_write (m : Memory) (a : Nat) (b : Byte) (k : Nat) :
    k ∈ (m.write a b).map Prod.fst ↔ k = a ∨ k ∈ m.map Prod.fst := by
  induction m with
  | nil => simp [Memory.write]
  | cons x rest ih =>
    obtain ⟨j, v⟩ := x
    simp only [Memory.write]
    split
    · simp
    · split
      · rename_i hj; subst hj; simp
      · simp only [List.map_cons, List.mem_cons, ih]; tauto

theorem Memory.write_wf (m : Memory) (a : Nat) (b : Byte) (h : m.wf) : (m.write a b).wf := by
  induction m with
  | nil => simp [Memory.write, Memory.wf]
  | cons x rest ih =>
    obtain ⟨k, v⟩ := x
    simp only [Memory.wf, List.map_cons, List.pairwise_cons] at h
    obtain ⟨hk, hrest⟩ := h
    simp only [Memory.write]
    split
    · rename_i hlt
      simp only [Memory.wf, List.map_cons, List.pairwise_cons]
      refine ⟨?_, hk, hrest⟩
      intro j hj
      rcases List.mem_cons.1 hj with rfl | hj
      · exact hlt
      · exact lt_trans hlt (hk j hj)
    · split
      · rename_i heq
        subst heq
        simpa only [Memory.wf, List.map_cons, List.pairwise_cons] using ⟨hk, hrest⟩
      · rename_i h1 h2
        simp only [Memory.wf, List.map_cons, List.pairwise_cons]
        refine ⟨?_, ih hrest⟩
        intro j hj
        rcases (Memory.keys_write rest a b j).1 hj with rfl | hj
        · omega
        · exact hk j hj

theorem Memory.put_wf (size : Nat) (m m' : Memory) (a : Nat) (b : Byte) (h : m.wf)
    (hp : Memory.put size m a b = some m') : m'.wf := by
  unfold Memory.put at hp
  split at hp
  · cases hp; exact m.write_wf a b h
  · cases hp

theorem Memory.writeBytes_wf (bs : List Byte) (m : Memory) (a : Nat) (h : m.wf) : (m.writeBytes a bs).wf := by
  induction bs generalizing m a with
  | nil => exact h
  | cons b rest ih => exact ih _ _ (m.write_wf a b h)

theorem Memory.allDead_wf : Memory.allDead.wf := by simp [Memory.allDead, Memory.wf]

/-- The spaces of the machine after reset are in canonical form. -/
theorem Memory.reset_wf :
    State.reset.rxPayload.wf ∧ State.reset.rxCks.wf ∧ State.reset.txScratch.wf := by
  simp [State.reset, State.initial, Memory.wf]

theorem Memory.read_writeBytes_below (bs : List Byte) (m : Memory) (a c : Nat) (h : c < a) :
    (m.writeBytes a bs).read c = m.read c := by
  induction bs generalizing m a with
  | nil => rfl
  | cons b rest ih =>
    rw [Memory.writeBytes, ih _ _ (by omega), Memory.read_write_other _ _ _ _ (by omega)]

/-- What a byte reads as after a run of bytes is written from address a: the run's byte inside the run, and
what it read as before outside. -/
theorem Memory.read_writeBytes (bs : List Byte) (m : Memory) (a c : Nat) :
    (m.writeBytes a bs).read c =
      if a ≤ c ∧ c < a + bs.length then bs[c - a]? else m.read c := by
  induction bs generalizing m a with
  | nil => simp [Memory.writeBytes]
  | cons b rest ih =>
    rw [Memory.writeBytes, ih]
    by_cases h : c = a
    · subst h; simp
    · rw [Memory.read_write_other _ _ _ _ h]
      by_cases h1 : a + 1 ≤ c ∧ c < a + 1 + rest.length
      · rw [if_pos h1, if_pos (by simp only [List.length_cons]; omega)]
        have : c - a = (c - (a + 1)) + 1 := by omega
        rw [this, List.getElem?_cons_succ]
      · rw [if_neg h1, if_neg (by simp only [List.length_cons]; omega)]

/-- Writing the byte just past a written run extends the run. -/
theorem Memory.write_next (m : Memory) (n : Nat) (b : Byte) (h : m.map Prod.fst = List.range n) :
    m.write n b = m ++ [(n, b)] := by
  have hlt : ∀ k ∈ m.map Prod.fst, k < n := by
    rw [h]; intro k hk; exact List.mem_range.1 hk
  clear h
  induction m with
  | nil => simp [Memory.write]
  | cons x rest ih =>
    obtain ⟨k, v⟩ := x
    have hk : k < n := hlt k (by simp)
    simp only [Memory.write]
    rw [if_neg (by omega), if_neg (by omega), ih (fun j hj => hlt j (by simp [hj]))]
    simp

theorem Memory.readBytes_shift (m : Memory) (a n : Nat)
    (h : m.map Prod.fst = (List.range n).map (a + ·)) : m.readBytes a n = some (m.map Prod.snd) := by
  induction n generalizing m a with
  | zero =>
    have : m = [] := by simpa using h
    subst this; rfl
  | succ k ih =>
    match m, h with
    | [], h => simp [List.range_succ_eq_map] at h
    | (j, v) :: rest, h =>
      simp only [List.range_succ_eq_map, List.map_cons, List.map_map, List.cons.injEq] at h
      obtain ⟨hj, hrest⟩ := h
      have hj : j = a := by simpa using hj
      subst hj
      have hr := ih rest (j + 1) (by rw [hrest]; apply List.map_congr_left; intro x _; simp; omega)
      have hcongr : ∀ (q : Nat) (c : Nat), j < c →
          Memory.readBytes ((j, v) :: rest) c q = Memory.readBytes rest c q := by
        intro q
        induction q with
        | zero => intro c _; rfl
        | succ q ihq =>
          intro c hc
          have hr : Memory.read ((j, v) :: rest) c = Memory.read rest c := by
            simp [Memory.read, Nat.ne_of_gt hc]
          simp only [Memory.readBytes, hr, ihq (c + 1) (by omega)]
      have hh : Memory.read ((j, v) :: rest) j = some v := by simp [Memory.read]
      simp only [Memory.readBytes, hcongr k (j + 1) (by omega), hr, hh, List.map_cons]

/-- A space written from 0 up to n reads, over that run, as its bytes in order. -/
theorem Memory.readBytes_written (m : Memory) (n : Nat) (h : m.map Prod.fst = List.range n) :
    m.readBytes 0 n = some (m.map Prod.snd) := by
  apply Memory.readBytes_shift
  simpa using h

end Sys2Proof.Machine
end

