-- ==== Sys2Proof/Laws/Framer.lean ====
section
/-! SUPPORT. The laws of the two framers' operations: the cascade's shape, and everything RXB and TXP can do. -/

namespace Sys2Proof.Machine

@[simp] theorem cascadeByte_length (b : Byte) (c : List Byte) : (cascadeByte b c).length = c.length := by
  induction c generalizing b with
  | nil => rfl
  | cons x rest ih => simp [cascadeByte, ih]

@[simp] theorem cascadeStart_length (n : Nat) : (cascadeStart n).length = n := by
  cases n <;> simp [cascadeStart]

theorem foldl_cascadeByte_length (p c : List Byte) :
    (p.foldl (fun c v => cascadeByte v c) c).length = c.length := by
  induction p generalizing c with
  | nil => rfl
  | cons v rest ih => simp [ih]

/-- A cascade has one byte per level. -/
@[simp] theorem cascade_length (p : List Byte) (n : Nat) : (cascade p n).length = n := by
  simp [cascade, foldl_cascadeByte_length]

@[simp] theorem frameOf_length (magic : Byte) (nck : Nck) (p : List Byte) :
    (frameOf magic nck p).length = 2 + p.length + nck.toNat := by
  simp [frameOf]; omega

theorem lengthAccepted_iff (b : Byte) : lengthAccepted b = true ↔ 1 ≤ b.toNat ∧ b.toNat ≤ 127 := by
  simp [lengthAccepted]

theorem lengthField_toNat (b : Byte) (h : b.toNat ≤ 127) : (lengthField b).toNat = b.toNat := by
  simp [lengthField]; omega

theorem put_eq_some (size : Nat) (m : Memory) (a : Nat) (b : Byte) (h : a < size) :
    Memory.put size m a b = some (m.write a b) := by
  simp [Memory.put, h]

/-- What RXB does in PAYLOAD when the byte exists and the length is held. -/
theorem rxbInPayload_next (b : Byte) (s : State) (len : BitVec 7) (hc : s.rxCount.toNat < 127)
    (hl : s.rxLen = some len) :
    rxbInPayload b s = .next (respond .none
      (if s.rxCount + 1 = len then
        { s with rxPayload := s.rxPayload.write s.rxCount.toNat b, rxCount := 0, rxState := .checksum }
      else
        { s with rxPayload := s.rxPayload.write s.rxCount.toNat b, rxCount := s.rxCount + 1 })) := by
  simp [rxbInPayload, put_eq_some _ _ _ _ hc, hl]

/-- What RXB does in CHECKSUM before the last trailer byte. -/
theorem rxbInChecksum_partial (b : Byte) (s : State) (hc : s.rxCount.toNat < s.cfgNck.toNat)
    (hn : s.rxCount + 1 ≠ s.cfgNck.val) :
    rxbInChecksum b s = .next (respond .none
      { s with rxCks := s.rxCks.write s.rxCount.toNat b, rxCount := s.rxCount + 1 }) := by
  simp only [rxbInChecksum, put_eq_some _ _ _ _ hc, if_neg hn]

/-- What RXB does at the last trailer byte, when the frame's bytes can be read. -/
theorem rxbInChecksum_last (b : Byte) (s : State) (len : BitVec 7) (p rcv : List Byte)
    (hc : s.rxCount.toNat < s.cfgNck.toNat) (hn : s.rxCount + 1 = s.cfgNck.val)
    (hl : s.rxLen = some len) (hp : s.rxPayload.readBytes 0 len.toNat = some p)
    (hr : (s.rxCks.write s.rxCount.toNat b).readBytes 0 s.cfgNck.toNat = some rcv) :
    rxbInChecksum b s = .next (respond
      (if cascade p s.cfgNck.toNat = rcv then .valid p else .rejected)
      (enterSync { s with rxCks := s.rxCks.write s.rxCount.toNat b, rxCount := s.rxCount + 1 })) := by
  simp only [rxbInChecksum, put_eq_some _ _ _ _ hc, hn, if_true, frameResult, hl, hp, hr, cksEqual,
    decide_eq_true_eq]

/-- Everything RXB can do when it answers a next state. -/
theorem execRxb_cases {b : Byte} {s t : State} (h : execRxb b s = .next t) :
    (s.rxState = .sync ∧ t = rxbInSync b s) ∨
    (s.rxState = .payloadLen ∧ t = rxbInPayloadLen b s) ∨
    (s.rxState = .payload ∧ ∃ len, s.rxLen = some len ∧ s.rxCount.toNat < 127 ∧
      t = respond .none
        (if s.rxCount + 1 = len then
          { s with rxPayload := s.rxPayload.write s.rxCount.toNat b, rxCount := 0, rxState := .checksum }
        else
          { s with rxPayload := s.rxPayload.write s.rxCount.toNat b, rxCount := s.rxCount + 1 })) ∨
    (s.rxState = .checksum ∧ s.rxCount.toNat < s.cfgNck.toNat ∧ s.rxCount + 1 ≠ s.cfgNck.val ∧
      t = respond .none
        { s with rxCks := s.rxCks.write s.rxCount.toNat b, rxCount := s.rxCount + 1 }) ∨
    (s.rxState = .checksum ∧ s.rxCount.toNat < s.cfgNck.toNat ∧ s.rxCount + 1 = s.cfgNck.val ∧
      ∃ len p rcv, s.rxLen = some len ∧ s.rxPayload.readBytes 0 len.toNat = some p ∧
        (s.rxCks.write s.rxCount.toNat b).readBytes 0 s.cfgNck.toNat = some rcv ∧
        t = respond (if cascade p s.cfgNck.toNat = rcv then .valid p else .rejected)
          (enterSync { s with
            rxCks := s.rxCks.write s.rxCount.toNat b, rxCount := s.rxCount + 1 })) := by
  unfold execRxb at h
  split at h
  · left; cases h; exact ⟨‹_›, rfl⟩
  · right; left; cases h; exact ⟨‹_›, rfl⟩
  · right; right; left
    refine ⟨‹_›, ?_⟩
    unfold rxbInPayload Memory.put at h
    by_cases hc : s.rxCount.toNat < Config.payloadSize
    · simp only [hc, if_true] at h
      cases hl : s.rxLen with
      | none => simp [hl] at h
      | some len =>
        simp only [hl] at h
        cases h
        exact ⟨len, rfl, hc, rfl⟩
    · simp [hc] at h
  · right; right; right
    unfold rxbInChecksum Memory.put at h
    by_cases hc : s.rxCount.toNat < s.cfgNck.toNat
    · simp only [hc, if_true] at h
      by_cases hn : s.rxCount + 1 = s.cfgNck.val
      · right
        simp only [hn, if_true, frameResult] at h
        refine ⟨‹_›, hc, hn, ?_⟩
        cases hl : s.rxLen with
        | none => simp [hl] at h
        | some len =>
          cases hp : s.rxPayload.readBytes 0 len.toNat with
          | none => simp [hl, hp] at h
          | some p =>
            cases hr : (s.rxCks.write s.rxCount.toNat b).readBytes 0 s.cfgNck.toNat with
            | none => simp [hl, hp, hr] at h
            | some rcv =>
              simp only [hl, hp, hr, cksEqual, decide_eq_true_eq] at h
              cases h
              exact ⟨len, p, rcv, rfl, hp, rfl, rfl⟩
      · left
        simp only [hn, if_false] at h
        cases h
        exact ⟨‹_›, hc, hn, rfl⟩
    · simp [hc] at h

/-- The two outcomes of TXP. -/
theorem execTxp_cases (s : State) :
    (127 < (operandsOf s).payload.length ∧ execTxp s = .next (respond .failLen s)) ∨
    ((operandsOf s).payload.length ≤ 127 ∧
      execTxp s = .next (respond
        (.okFrame (frameOf s.cfgMagic s.cfgNck (operandsOf s).payload))
        { s with txScratch :=
          s.txScratch.writeBytes 0 (frameOf s.cfgMagic s.cfgNck (operandsOf s).payload) })) := by
  unfold execTxp
  by_cases h : (operandsOf s).payload.length > 127
  · left; simp [h]
  · right; simp [h]; omega

end Sys2Proof.Machine
end

