-- ==== Sys2Proof/Laws/Step.lean ====
section
/-! SUPPORT. The laws of decoding a word made from its fields, and everything a step can do. -/

namespace Sys2Proof

@[simp] theorem opOf_wordOf (op imm : Byte) : opOf (wordOf op imm) = op := by
  apply BitVec.eq_of_getLsbD_eq
  intro i hi
  simp only [opOf, wordOf, BitVec.getLsbD_extractLsb', BitVec.getLsbD_append]
  simp [hi]

@[simp] theorem imm8Of_wordOf (op imm : Byte) : imm8Of (wordOf op imm) = imm := by
  apply BitVec.eq_of_getLsbD_eq
  intro i hi
  simp only [imm8Of, wordOf, BitVec.getLsbD_extractLsb', BitVec.getLsbD_append]
  simp [hi]

/-- A word is made of its two fields. -/
theorem wordOf_fields (cw : Word) : wordOf (opOf cw) (imm8Of cw) = cw := by
  apply BitVec.eq_of_getLsbD_eq
  intro i hi
  simp only [opOf, imm8Of, wordOf, BitVec.getLsbD_extractLsb', BitVec.getLsbD_append]
  by_cases h : i < 8
  · simp [h]
  · have h1 : i - 8 < 8 := by omega
    have h2 : 8 + (i - 8) = i := by omega
    simp [h, h1, h2]

namespace Machine

/-- Everything a step can do when it answers a next state. -/
theorem step_cases {s t : State} (h : step s = .next t) :
    (s.requests = [] ∧ t = s) ∨
    (∃ r rest, s.requests = r :: rest ∧
      ((∃ e, decode r.cw = .error e ∧ t = illegalWord r.cw s) ∨
       (∃ i, decode r.cw = .ok i ∧ exec i s = .next t))) := by
  unfold step pendingWord at h
  cases hr : s.requests with
  | nil =>
    simp only [hr] at h
    cases h
    exact .inl ⟨rfl, rfl⟩
  | cons r rest =>
    right
    refine ⟨r, rest, rfl, ?_⟩
    simp only [hr] at h
    cases hd : decode r.cw with
    | error e =>
      simp only [hd] at h
      cases h
      exact .inl ⟨e, rfl, rfl⟩
    | ok i =>
      simp only [hd] at h
      exact .inr ⟨i, rfl, h⟩

end Machine

end Sys2Proof
end

