-- ==== Sys2Proof/Laws/Claims.lean ====
section
/-! SUPPORT. The shared operations in the terms the claims use: what an encoded buffer holds, what taking a fault
does, and how a written run grows. -/

namespace Sys2Proof.Safety

open Sys2Proof.Machine

/-- A buffer holds an image when its bytes are the image's bytes. -/
theorem holdsImage_iff (o : ByteOrder) (w : Nat) (v : BitVec w) (buf : List Byte) (off : Nat) :
    HoldsImage o w v buf off ↔ ∀ k, k < w / 8 → buf[off + k]? = some (imageByte o w v k) := by
  cases o <;> simp [HoldsImage, imageByte]

/-- Encode replaces exactly the bytes of the image. -/
theorem encodeBuf_encoded (o : ByteOrder) (w : Nat) (v : BitVec w) (buf : List Byte) (off : Nat)
    (h : off + w / 8 ≤ buf.length) : Encoded o w v buf off (encodeBuf o w buf off v) := by
  refine ⟨memWrite_length _ _ _ (by simpa using h), ?_, fun j hj => ?_⟩
  · rw [holdsImage_iff]
    intro k hk
    rw [encodeBuf, memWrite_getElem?_inside _ _ _ _ (by simpa using h) (by simpa using hk),
      bytesOf_getElem? _ _ _ _ hk]
  · exact memWrite_getElem?_outside _ _ _ _ (by simpa using h) (by simpa using hj)

/-- Taking a fault does what 60_exceptions.md R201 says and no more. -/
theorem raiseFault_faultTaken (f : FaultInfo) (s : State) :
    FaultTaken s f (faultResponse f) (raiseFault f s) := by
  refine ⟨by simp [Answered], by simp [SameBlock, SameCfg, SameRx], by simp, fun q => by simp⟩

/-- Storing the next byte of a written run makes the run one longer. -/
theorem WrittenUpTo.write {m : Memory} {n : Nat} (h : WrittenUpTo m n) (b : Byte) :
    WrittenUpTo (m.write n b) (n + 1) := by
  unfold WrittenUpTo at h ⊢
  rw [Memory.write_next _ _ _ h]
  simp [h, List.range_succ]

/-- A written run is in canonical form. -/
theorem WrittenUpTo.wf {m : Memory} {n : Nat} (h : WrittenUpTo m n) : m.wf := by
  unfold WrittenUpTo at h
  unfold Memory.wf
  rw [h]
  exact List.pairwise_lt_range

/-- The 7-bit count does not wrap below 127 (10_state.md R25). -/
theorem count_succ (c : BitVec 7) (h : c.toNat < 127) : (c + 1).toNat = c.toNat + 1 := by
  rw [BitVec.toNat_add]
  simp
  omega

end Sys2Proof.Safety
end

