-- ==== Sys2Proof/Laws/PerInstr.lean ====
section
/-! SUPPORT. Statements made per instruction: an instruction's command word lies in its own row of the opcode
table (its match and mask), so no two operations share a word. -/

namespace Sys2Proof.Laws.TableRow

/-- The mask of an instruction's row of spec/opcode_table.json. -/
def mask (i : Instr) : Word :=
  match i with
  | .rxb _ => 0xFF00
  | .txp => 0xFFFF
  | .encI8 _ => 0xFF00
  | .encI16 _ => 0xFF00
  | .encI32 _ => 0xFF00
  | .encI64 _ => 0xFF00
  | .encF32 _ => 0xFF00
  | .decI8 _ => 0xFF00
  | .decI16 _ => 0xFF00
  | .decI32 _ => 0xFF00
  | .decI64 _ => 0xFF00
  | .decF32 _ => 0xFF00

/-- The match value of an instruction's row of spec/opcode_table.json. -/
def pattern (i : Instr) : Word :=
  match i with
  | .rxb _ => 0x0100
  | .txp => 0x0200
  | .encI8 _ => 0x1000
  | .encI16 _ => 0x1100
  | .encI32 _ => 0x1200
  | .encI64 _ => 0x1300
  | .encF32 _ => 0x1400
  | .decI8 _ => 0x1800
  | .decI16 _ => 0x1900
  | .decI32 _ => 0x1A00
  | .decI64 _ => 0x1B00
  | .decF32 _ => 0x1C00

/-- The instruction's command word matches its own row of the opcode table. -/
def Statement (i : Instr) : Prop := encode i &&& mask i = pattern i

theorem wordOf_and_high (op imm : Byte) : wordOf op imm &&& 0xFF00#16 = wordOf op 0x00#8 := by
  apply BitVec.eq_of_getLsbD_eq
  intro i hi
  simp only [wordOf, BitVec.getLsbD_and, BitVec.getLsbD_append]
  interval_cases i <;> simp

theorem rxb (b : Byte) : Statement (.rxb b) := wordOf_and_high _ _

theorem txp : Statement .txp := by unfold Statement; decide

theorem encI8 (off : Nat) : Statement (.encI8 off) := wordOf_and_high _ _

theorem encI16 (off : Nat) : Statement (.encI16 off) := wordOf_and_high _ _

theorem encI32 (off : Nat) : Statement (.encI32 off) := wordOf_and_high _ _

theorem encI64 (off : Nat) : Statement (.encI64 off) := wordOf_and_high _ _

theorem encF32 (off : Nat) : Statement (.encF32 off) := wordOf_and_high _ _

theorem decI8 (off : Nat) : Statement (.decI8 off) := wordOf_and_high _ _

theorem decI16 (off : Nat) : Statement (.decI16 off) := wordOf_and_high _ _

theorem decI32 (off : Nat) : Statement (.decI32 off) := wordOf_and_high _ _

theorem decI64 (off : Nat) : Statement (.decI64 off) := wordOf_and_high _ _

theorem decF32 (off : Nat) : Statement (.decF32 off) := wordOf_and_high _ _

end Sys2Proof.Laws.TableRow
end

