-- ==== Sys2Proof/Tests/Slice0.lean ====
section
/-! SUPPORT. The model's own tests: ill-formed instructions, words written out from the encoding, vectors of
95_test_vectors.md one step each, and a witness for the hypotheses of every claim. -/

namespace Sys2Proof.Tests

open Sys2Proof.Machine Sys2Proof.Safety

/-! ## Small states -/

/-- The vectors' instance: MAGIC 0xA5, NCK 2, LE (95_test_vectors.md). -/
def inst (order : ByteOrder := .le) : State := State.initial 0xA5 ⟨2, by decide⟩ order

/-- The vectors' state notation (rx_state, rx_count, rx_len, prefix of rx_payload, prefix of rx_cks). -/
def inRx (x : RxState) (count : BitVec 7) (len : Option (BitVec 7)) (payload cks : List Byte) : State :=
  { inst with
    rxState := x, rxCount := count, rxLen := len
    rxPayload := Memory.writeBytes [] 0 payload, rxCks := Memory.writeBytes [] 0 cks }

/-- s with one request at the port. -/
def ask (s : State) (r : Request) : State := { s with requests := [r] }

/-- The response of one step, when it gives a next state. -/
def answer (s : State) (r : Request) : Option Response :=
  match step (ask s r) with
  | .next t => t.responses.getLast?
  | _ => none

/-- A view of the state after one step, when there is one. -/
def after {α : Type} (view : State → α) (s : State) (r : Request) : Option α :=
  match step (ask s r) with
  | .next t => some (view t)
  | _ => none

/-- The RX context, compared as one value. -/
structure RxView where
  state : RxState
  count : BitVec 7
  len : Option (BitVec 7)
  payload : List Host.Cell
  cks : List Host.Cell
  deriving DecidableEq, Repr

/-- The RX context of a state. -/
def rxView (s : State) : RxView := ⟨s.rxState, s.rxCount, s.rxLen, s.rxPayload, s.rxCks⟩

/-! ## WellFormed refuses an ill-formed term for each of its checks (30_encoding.md R84) -/

theorem test_encI8_offset_256_refused : ¬ WellFormed (.encI8 256) := by decide
theorem test_encI16_offset_256_refused : ¬ WellFormed (.encI16 256) := by decide
theorem test_encI32_offset_256_refused : ¬ WellFormed (.encI32 256) := by decide
theorem test_encI64_offset_256_refused : ¬ WellFormed (.encI64 256) := by decide
theorem test_encF32_offset_256_refused : ¬ WellFormed (.encF32 256) := by decide
theorem test_decI8_offset_256_refused : ¬ WellFormed (.decI8 256) := by decide
theorem test_decI16_offset_256_refused : ¬ WellFormed (.decI16 256) := by decide
theorem test_decI32_offset_256_refused : ¬ WellFormed (.decI32 256) := by decide
theorem test_decI64_offset_256_refused : ¬ WellFormed (.decI64 256) := by decide
theorem test_decF32_offset_256_refused : ¬ WellFormed (.decF32 256) := by decide

/-! ## Words written out bit by bit, OP then IMM8 (30_encoding.md R80 to R82) -/

theorem test_decode_rxb : decode 0b0000000110100101#16 = .ok (.rxb 0xA5) := by decide
theorem test_decode_txp : decode 0b0000001000000000#16 = .ok .txp := by decide
theorem test_decode_encI8 : decode 0b0001000000000001#16 = .ok (.encI8 1) := by decide
theorem test_decode_encI16 : decode 0b0001000100000110#16 = .ok (.encI16 6) := by decide
theorem test_decode_encI32 : decode 0b0001001000000010#16 = .ok (.encI32 2) := by decide
theorem test_decode_encI64 : decode 0b0001001110000000#16 = .ok (.encI64 128) := by decide
theorem test_decode_encF32 : decode 0b0001010011111111#16 = .ok (.encF32 255) := by decide
theorem test_decode_decI8 : decode 0b0001100000000010#16 = .ok (.decI8 2) := by decide
theorem test_decode_decI16 : decode 0b0001100100000110#16 = .ok (.decI16 6) := by decide
theorem test_decode_decI32 : decode 0b0001101000000001#16 = .ok (.decI32 1) := by decide
theorem test_decode_decI64 : decode 0b0001101110000000#16 = .ok (.decI64 128) := by decide
theorem test_decode_decF32 : decode 0b0001110000000000#16 = .ok (.decF32 0) := by decide

/-- V-IL-4, V-IL-5 to V-IL-7, V-IL-10, V-IL-11, V-IL-14 to V-IL-17 are ILLEGAL, each under its reason. -/
theorem test_decode_illegal :
    decode 0x0201 = .error (.reservedImm8 1) ∧ decode 0x0000 = .error (.reservedOpcode 0) ∧
    decode 0x0300 = .error (.reservedOpcode 3) ∧ decode 0x0FFF = .error (.reservedOpcode 0x0F) ∧
    decode 0x1500 = .error (.reservedWidth 0x15) ∧ decode 0x1700 = .error (.reservedWidth 0x17) ∧
    decode 0x1D00 = .error (.reservedWidth 0x1D) ∧ decode 0x1F10 = .error (.reservedWidth 0x1F) ∧
    decode 0x2000 = .error (.reservedOpcode 0x20) ∧ decode 0xFFFF = .error (.reservedOpcode 0xFF) := by
  decide

/-- The words of program P3 (95_test_vectors.md part 3). -/
theorem test_encode_P3 :
    encode (.encI8 1) = 0x1001 ∧ encode (.encI32 2) = 0x1202 ∧ encode (.encI16 6) = 0x1106 ∧
    encode (.decI32 2) = 0x1A02 ∧ encode (.decI16 6) = 0x1906 ∧ encode (.decI8 0) = 0x1800 ∧
    encode .txp = 0x0200 ∧ encode (.rxb 0xA5) = 0x01A5 := by decide

theorem test_table_word : decodeTableWord 16 0x1A02 = some (.decI32 2) ∧ decodeTableWord 16 0x1D00 = none := by
  decide

/-! ## RXB (95_test_vectors.md 2.3 and part 3) -/

/-- P1 step 2: MAGIC in SYNC. -/
theorem test_rxb_magic :
    after rxView inst (asmRxb 0xA5) = some ⟨.payloadLen, 0, none, [], []⟩ := by decide

/-- P1 step 6: the third byte of three moves to CHECKSUM with the count at 0. -/
theorem test_rxb_last_payload_byte :
    after rxView (inRx .payload 2 (some 3) [1, 2] []) (asmRxb 3) =
      some ⟨.checksum, 0, some 3, [(0, 1), (1, 2), (2, 3)], []⟩ := by decide

/-- P1 step 8 (V-RX-1): VALID with the payload. -/
theorem test_rxb_valid :
    answer (inRx .checksum 1 (some 3) [1, 2, 3] [7]) (asmRxb 0x0D) = some (.valid [1, 2, 3]) := by decide

/-- P2 step 12: REJECTED, and the context is reset. -/
theorem test_rxb_rejected :
    answer (inRx .checksum 1 (some 3) [1, 2, 3] [7]) (asmRxb 0x0C) = some .rejected ∧
    after rxView (inRx .checksum 1 (some 3) [1, 2, 3] [7]) (asmRxb 0x0C) =
      some ⟨.sync, 0, none, [], []⟩ := by decide

/-- V-RX-5 and the boundaries of 30_encoding.md R88: 0x00 and 0x80 are refused, 0x7F is accepted. -/
theorem test_rxb_length_boundaries :
    after rxView (inRx .payloadLen 0 none [] []) (asmRxb 0x00) = some ⟨.sync, 0, none, [], []⟩ ∧
    after rxView (inRx .payloadLen 0 none [] []) (asmRxb 0x80) = some ⟨.sync, 0, none, [], []⟩ ∧
    after rxView (inRx .payloadLen 0 none [] []) (asmRxb 0x7F) =
      some ⟨.payload, 0, some 127, [], []⟩ := by decide

/-- A DEAD element stops a step, in a state no run reaches (00_scope.md R12). -/
theorem test_dead_read_faults :
    execRxb 0 (inRx .payload 0 none [] []) = .fault .deadRxLen ∧
    execRxb 0 (inRx .checksum 1 (some 3) [1, 2] [7]) = .fault .deadRxPayload := ⟨rfl, rfl⟩

/-! ## TXP and the cascade (95_test_vectors.md 2.1, 2.2) -/

/-- V-CK-4, V-CK-13, V-CK-20. -/
theorem test_cascade :
    cascade [1, 2, 3] 4 = [0x07, 0x0D, 0x15, 0x1F] ∧ cascade [0xFF] 2 = [0, 0] ∧
    cascade [0x02, 0x07, 0xCD, 0x8B, 0x01, 0x00, 0xC4, 0x09] 2 = [0x30, 0x63] := by decide

/-- V-TX-1: the frame returned and the bytes of tx_scratch. -/
theorem test_txp_frame :
    answer inst (asmTxp [1, 2, 3]) = some (.okFrame [0xA5, 3, 1, 2, 3, 7, 0x0D]) ∧
    after (fun t => t.txScratch) inst (asmTxp [1, 2, 3]) =
      some [(0, 0xA5), (1, 3), (2, 1), (3, 2), (4, 3), (5, 7), (6, 0x0D)] := by decide

set_option maxRecDepth 4000 in
/-- V-TX-6: 128 bytes fail and leave tx_scratch DEAD; V-TX-8: the empty payload is framed. -/
theorem test_txp_limits :
    answer inst (asmTxp (List.replicate 128 0)) = some .failLen ∧
    after (fun t => t.txScratch) inst (asmTxp (List.replicate 128 0)) = some [] ∧
    answer inst (asmTxp []) = some (.okFrame [0xA5, 0, 1, 0]) := ⟨rfl, rfl, rfl⟩

/-! ## The codec (95_test_vectors.md 2.4, 2.5) -/

/-- V-EN-2, V-EN-3. -/
theorem test_encI8 :
    answer inst (asmEncI8 [0, 0] 1 0xFF) = some (.okBuf [0, 0xFF]) ∧
    answer inst (asmEncI8 [] 0 0) = some .faultRange := by decide

/-- V-EN-5 in both orders, V-EN-6. -/
theorem test_encI16 :
    answer inst (asmEncI16 [0, 0, 0, 0] 2 0x1234) = some (.okBuf [0, 0, 0x34, 0x12]) ∧
    answer (inst .be) (asmEncI16 [0, 0, 0, 0] 2 0x1234) = some (.okBuf [0, 0, 0x12, 0x34]) ∧
    answer inst (asmEncI16 [0, 0, 0, 0] 3 0x1234) = some .faultRange := by decide

/-- V-EN-7 in both orders. -/
theorem test_encI32 :
    answer inst (asmEncI32 (List.replicate 8 0) 2 0x00018BCD) =
      some (.okBuf [0, 0, 0xCD, 0x8B, 1, 0, 0, 0]) ∧
    answer (inst .be) (asmEncI32 (List.replicate 8 0) 2 0x00018BCD) =
      some (.okBuf [0, 0, 0, 1, 0x8B, 0xCD, 0, 0]) := by decide

/-- V-EN-12 in both orders. -/
theorem test_encI64 :
    answer inst (asmEncI64 (List.replicate 8 0) 0 0x8000000000000000) =
      some (.okBuf [0, 0, 0, 0, 0, 0, 0, 0x80]) ∧
    answer (inst .be) (asmEncI64 (List.replicate 8 0) 0 0x8000000000000000) =
      some (.okBuf [0x80, 0, 0, 0, 0, 0, 0, 0]) := by decide

/-- V-EN-16: the NaN payload is kept. -/
theorem test_encF32 :
    answer inst (asmEncF32 (List.replicate 4 0) 0 0x7FC00001) = some (.okBuf [1, 0, 0xC0, 0x7F]) := by
  decide

/-- V-DE-2, V-DE-3, and fault_mark after the fault (60_exceptions.md R201). -/
theorem test_decI8 :
    answer inst (asmDecI8 [2, 7] 1) = some (.okValue 8 7) ∧
    answer inst (asmDecI8 [2, 7] 2) = some .faultRange ∧
    after (fun t => (t.faultMark, t.faultInfo)) inst (asmDecI8 [2, 7] 2) =
      some (⟨true, false⟩, [.range 2 1 2]) := by decide

/-- V-DE-4 in both orders. -/
theorem test_decI16 :
    answer inst (asmDecI16 [0xFF, 0x7F] 0) = some (.okValue 16 0x7FFF) ∧
    answer (inst .be) (asmDecI16 [0xFF, 0x7F] 0) = some (.okValue 16 0xFF7F) := by decide

/-- V-DE-7 in both orders. -/
theorem test_decI32 :
    answer inst (asmDecI32 [2, 7, 0xCD, 0x8B, 1, 0, 0xC4, 9] 2) = some (.okValue 32 0x00018BCD) ∧
    answer (inst .be) (asmDecI32 [2, 7, 0xCD, 0x8B, 1, 0, 0xC4, 9] 2) =
      some (.okValue 32 0xCD8B0100) := by decide

/-- V-DE-10 in both orders. -/
theorem test_decI64 :
    answer inst (asmDecI64 [0xFF, 0xFF, 0xFF, 0xFF, 0xFF, 0xFF, 0xFF, 0x7F] 0) =
      some (.okValue 64 0x7FFFFFFFFFFFFFFF) ∧
    answer (inst .be) (asmDecI64 [0xFF, 0xFF, 0xFF, 0xFF, 0xFF, 0xFF, 0xFF, 0x7F] 0) =
      some (.okValue 64 0xFFFFFFFFFFFFFF7F) := by decide

/-- V-DE-12: a signalling NaN returned unquieted. -/
theorem test_decF32 :
    answer inst (asmDecF32 [1, 0, 0x80, 0x7F] 0) = some (.okValue 32 0x7F800001) := by decide

/-- P5 step 3: an illegal word in the middle of a frame changes nothing but the fault record. -/
theorem test_illegal_word :
    answer (inRx .payload 0 (some 3) [] []) ⟨0x0300, { }⟩ = some .faultIllegal ∧
    after rxView (inRx .payload 0 (some 3) [] []) ⟨0x0300, { }⟩ = some ⟨.payload, 0, some 3, [], []⟩ ∧
    after (fun t => (t.faultMark, t.faultInfo)) (inRx .payload 0 (some 3) [] []) ⟨0x0300, { }⟩ =
      some (⟨false, true⟩, [.illegal 0x0300]) := by decide

/-- -128, -1 and 101325 as the spec reads them (40_codec.md R120, 95_test_vectors.md 2.5). -/
theorem test_signed_reading :
    sintOf 8 0x80 = -128 ∧ sintOf 8 0xFF = -1 ∧ sintOf 16 0xFF7F = -129 ∧ sintOf 32 0x00018BCD = 101325 ∧
    patternOfInt 16 (-2) = 0xFFFE := by decide

/-- The binary32 fields of -2.5f, 0xC0200000 (30_encoding.md R91, 40_codec.md R124). -/
theorem test_binary32_fields :
    f32Sign 0xC0200000 = 1 ∧ f32Exponent 0xC0200000 = 128 ∧ f32Fraction 0xC0200000 = 0x200000 := by decide

/-- PKT baro, 8, 2, 7 of program P3: its second request, served, gives the header of step 2. -/
theorem test_pkt :
    (asmPkt .le 8 2 7).getLast?.bind (answer inst) = some (.okBuf [2, 7, 0, 0, 0, 0, 0, 0]) := by decide

/-- V-CO-2, V-CO-3: NCK 1 and 127 construct, 0 and 128 are refused. -/
theorem test_construct :
    (State.construct 0xA5 1).toOption.isSome ∧ (State.construct 0xA5 127).toOption.isSome ∧
    State.construct 0xA5 0 = .error (.notAnInstance 0) ∧
    State.construct 0xA5 128 = .error (.notAnInstance 128) := by decide

/-! ## From State.reset, each row of the table runs as the first request -/

/-- The step from reset with a table word placed gives a next state. -/
def runsFirst (w : Nat) : Bool :=
  match step (State.reset.withFetchWord 16 w) with
  | .next _ => true
  | _ => false

theorem test_first_request :
    runsFirst 0x0100 ∧ runsFirst 0x0200 ∧ runsFirst 0x1000 ∧ runsFirst 0x1100 ∧ runsFirst 0x1200 ∧
    runsFirst 0x1300 ∧ runsFirst 0x1400 ∧ runsFirst 0x1800 ∧ runsFirst 0x1900 ∧ runsFirst 0x1A00 ∧
    runsFirst 0x1B00 ∧ runsFirst 0x1C00 := by decide

/-! ## Witnesses: the hypotheses of every claim are met by something -/

theorem rxTable_inst : RxTable inst := ⟨rfl, rfl, rfl, rfl⟩

/-- PAYLOAD with one byte of three written. -/
theorem rxTable_payload : RxTable (inRx .payload 1 (some 3) [1] []) := ⟨3, rfl, by decide, rfl, rfl⟩

/-- CHECKSUM with one trailer byte of two written. -/
theorem rxTable_checksum : RxTable (inRx .checksum 1 (some 3) [1, 2, 3] [7]) :=
  ⟨3, rfl, by decide, by decide, rfl, rfl⟩

/-- PAYLOAD at the last row of its range: rx_count 126 of 127. -/
theorem rxTable_payload_last :
    RxTable { inst with
      rxState := .payload, rxCount := 126, rxLen := some 127
      rxPayload := (List.range 126).map (fun a => (a, 0)) } :=
  ⟨127, rfl, by decide, by unfold WrittenUpTo; decide, rfl⟩

theorem reset_inv : Inv State.reset where
  rx := ⟨rfl, rfl, rfl, rfl⟩
  scratch := ⟨List.Pairwise.nil, fun _ _ => rfl⟩
  mark := by intro r; cases r <;> simp [State.reset, State.initial, FaultMark.has]

theorem inst_inv : Inv inst where
  rx := rxTable_inst
  scratch := ⟨List.Pairwise.nil, fun _ _ => rfl⟩
  mark := by intro r; cases r <;> simp [inst, State.initial, FaultMark.has]

theorem witness_IllegalWords :
    ListedIllegal 0x00FF ∧ ListedIllegal 0x0300 ∧ ListedIllegal 0x0FFF ∧ ListedIllegal 0x1500 ∧
    ListedIllegal 0x17FF ∧ ListedIllegal 0x1D00 ∧ ListedIllegal 0x1FFF ∧ ListedIllegal 0x2000 ∧
    ListedIllegal 0xFFFF ∧ ListedIllegal 0x0201 ∧ ¬ ListedIllegal 0x0200 ∧ ¬ ListedIllegal 0x14FF := by
  unfold ListedIllegal
  refine ⟨?_, ?_, ?_, ?_, ?_, ?_, ?_, ?_, ?_, ?_, ?_, ?_⟩ <;> decide

/-- Both clauses about a request: an illegal word at the port, and a legal one whose step answers. -/
theorem witness_IllegalWordsAreTheListed :
    ((ask inst ⟨0x0201, { }⟩).requests = [⟨0x0201, { }⟩] ∧ ListedIllegal 0x0201) ∧
    ((ask inst (asmTxp [1])).requests = [asmTxp [1]] ∧ ¬ ListedIllegal (asmTxp [1]).cw ∧
      ∃ t, step (ask inst (asmTxp [1])) = .next t) := by
  unfold ListedIllegal
  exact ⟨by decide, rfl, by decide, _, rfl⟩

theorem witness_DecodeOfEncode : WellFormed (.decF32 255) ∧ WellFormed (.encI8 0) := by decide

theorem witness_EncodeOfDecode : decode 0x1CFF = .ok (.decF32 255) := by decide

theorem witness_StepRunsDecodedInstruction :
    (ask inst (asmTxp [1])).requests = [asmTxp [1]] ∧ decode (asmTxp [1]).cw = .ok .txp := by decide

theorem witness_IllegalWordTakesFault :
    (ask inst ⟨0x0201, { }⟩).requests = [⟨0x0201, { }⟩] ∧ ListedIllegal 0x0201 := by
  unfold ListedIllegal
  decide

theorem witness_ParkedWithoutRequest : inst.requests = [] := rfl

theorem witness_EveryRequestIsAnswered :
    RxTable (ask inst (asmRxb 0xA5)) ∧ (ask inst (asmRxb 0xA5)).requests = [asmRxb 0xA5] :=
  ⟨⟨rfl, rfl, rfl, rfl⟩, rfl⟩

theorem witness_ResponsesGivenNeverChange :
    ∃ t, core.run 1 (ask inst (asmRxb 0xA5)) = .next t ∧ t.responses = [.none] := ⟨_, rfl, rfl⟩

/-- Both clauses: the MAGIC byte and another one. -/
theorem witness_RxbInSyncSeeksMagic :
    inst.rxState = .sync ∧ (0xA5 : Byte) = inst.cfgMagic ∧ (0xA4 : Byte) ≠ inst.cfgMagic := by decide

/-- Both clauses at the boundaries 1, 0x7F and 0, 0x80. -/
theorem witness_RxbInPayloadLenReadsLength :
    (inRx .payloadLen 0 none [] []).rxState = .payloadLen ∧
    (1 ≤ (0x01 : Byte).toNat ∧ (0x01 : Byte).toNat ≤ 0x7F) ∧
    (1 ≤ (0x7F : Byte).toNat ∧ (0x7F : Byte).toNat ≤ 0x7F) ∧
    ¬ (1 ≤ (0x00 : Byte).toNat ∧ (0x00 : Byte).toNat ≤ 0x7F) ∧
    ¬ (1 ≤ (0x80 : Byte).toNat ∧ (0x80 : Byte).toNat ≤ 0x7F) := by decide

/-- Both clauses: the last byte of the payload, and one before it. -/
theorem witness_RxbInPayloadStoresByte :
    (inRx .payload 2 (some 3) [1, 2] []).rxState = .payload ∧
    (inRx .payload 2 (some 3) [1, 2] []).rxLen = some 3 ∧
    (inRx .payload 2 (some 3) [1, 2] []).rxCount.toNat < (3 : BitVec 7).toNat ∧
    (inRx .payload 2 (some 3) [1, 2] []).rxCount.toNat + 1 = (3 : BitVec 7).toNat ∧
    (inRx .payload 1 (some 3) [1] []).rxCount.toNat + 1 ≠ (3 : BitVec 7).toNat := by decide

/-- The first clause: the first of two trailer bytes. -/
theorem witness_RxbInChecksumStores :
    (inRx .checksum 0 (some 3) [1, 2, 3] []).rxState = .checksum ∧
    (inRx .checksum 0 (some 3) [1, 2, 3] []).rxCount.toNat + 1 <
      (inRx .checksum 0 (some 3) [1, 2, 3] []).cfgNck.toNat := by decide

/-- The second clause: the last trailer byte, matching (0x0D) and not (0x0C). -/
theorem witness_RxbInChecksumValidates :
    (inRx .checksum 1 (some 3) [1, 2, 3] [7]).rxLen = some 3 ∧
    (inRx .checksum 1 (some 3) [1, 2, 3] [7]).rxCount.toNat + 1 =
      (inRx .checksum 1 (some 3) [1, 2, 3] [7]).cfgNck.toNat ∧
    (∀ i < 3, (inRx .checksum 1 (some 3) [1, 2, 3] [7]).rxPayload.read i = [1, 2, 3][i]?) ∧
    (∀ i < 1, (inRx .checksum 1 (some 3) [1, 2, 3] [7]).rxCks.read i = [7][i]?) ∧
    cascade [1, 2, 3] 2 = [7] ++ [0x0D] ∧ cascade [1, 2, 3] 2 ≠ [7] ++ [0x0C] := by decide

theorem witness_RxbNeverFails : RxTable (inRx .checksum 1 (some 3) [1, 2, 3] [7]) := rxTable_checksum

/-- All four inbound states give a next state. -/
theorem witness_RxbFrame :
    (∃ t, exec (.rxb 0xA5) inst = .next t) ∧
    (∃ t, exec (.rxb 3) (inRx .payloadLen 0 none [] []) = .next t ∧ t.rxState = .payload) ∧
    (∃ t, exec (.rxb 3) (inRx .payload 2 (some 3) [1, 2] []) = .next t) ∧
    (∃ t, exec (.rxb 7) (inRx .checksum 0 (some 3) [1, 2, 3] []) = .next t ∧ t.rxState = .checksum) :=
  ⟨⟨_, rfl⟩, ⟨_, rfl, rfl⟩, ⟨_, rfl⟩, ⟨_, rfl, rfl⟩⟩

theorem witness_EnteringSyncResetsContext :
    ∃ t, exec (.rxb 0) (inRx .payloadLen 0 none [] []) = .next t ∧
      (inRx .payloadLen 0 none [] []).rxState ≠ .sync ∧ t.rxState = .sync :=
  ⟨_, rfl, by decide, rfl⟩

theorem witness_MagicIsReadInSyncOnly :
    ∃ t, exec (.rxb 0xA5) (inRx .payload 0 (some 3) [] []) = .next t ∧
      (inRx .payload 0 (some 3) [] []).rxState ≠ .sync :=
  ⟨_, rfl, by decide⟩

/-- The boundary of both clauses: 127 bytes and 128 bytes; and the word of the first clause. -/
theorem witness_TxpPreparesFrame :
    (operandsOf (ask inst (asmTxp (List.replicate 127 0)))).payload.length ≤ 127 ∧
    (operandsOf (ask inst (asmTxp (List.replicate 128 0)))).payload.length > 127 ∧
    opOf 0x0200 = 0x02 ∧ imm8Of 0x0200 = 0x00 :=
  ⟨(List.length_replicate ..).le, (List.length_replicate ..).ge, by decide, by decide⟩

theorem witness_FrameLayout : (List.replicate 127 (0 : Byte)).length ≤ 127 := (List.length_replicate ..).le

/-- A MAGIC that the trailer does not hold, and each of the two it does hold, NCK 2 at its boundary. -/
theorem witness_EmptyPayloadFrame :
    (operandsOf (ask inst (asmTxp []))).payload = [] ∧
    (inst.rxState = .sync ∧ inst.cfgMagic ≠ 0x00 ∧ inst.cfgMagic ≠ 0x01) ∧
    (({ inst with cfgMagic := 0x01 } : State).rxState = .sync) ∧
    (({ inst with cfgMagic := 0x00 } : State).rxState = .sync ∧ 2 ≤ inst.cfgNck.toNat) := by decide

theorem witness_CascadeClosedForm : 126 < (⟨127, by decide⟩ : Nck).toNat := by decide

theorem witness_CascadeStructure : 1 ≤ 2 ∧ 2 ≤ 127 := by decide

/-- One changed byte, one adjacent swap, one swap at distance 2 (V-CK-21, V-CK-11, V-CK-9). -/
theorem witness_CascadeDetection :
    ([1, 2, 3] : List Byte)[2]? ≠ some 4 ∧
    (([1, 2, 3] : List Byte)[0]? = some 1 ∧ ([1, 2, 3] : List Byte)[1]? = some 2 ∧ (1 : Byte) ≠ 2) ∧
    (([0, 5, 0x80] : List Byte)[0]? = some 0 ∧ ([0, 5, 0x80] : List Byte)[2]? = some 0x80) := by decide

/-- In range to the last byte, and one past it, for each width; and a word of each opcode. -/
theorem witness_EncodeBehaviour :
    1 + 8 / 8 ≤ (operandsOf (ask inst (asmEncI8 [0, 0] 1 0))).buf.length ∧
    (operandsOf (ask inst (asmEncI8 [0, 0] 2 0))).buf.length < 2 + 8 / 8 ∧
    2 + 16 / 8 ≤ (operandsOf (ask inst (asmEncI16 [0, 0, 0, 0] 2 0))).buf.length ∧
    (operandsOf (ask inst (asmEncI16 [0, 0, 0, 0] 3 0))).buf.length < 3 + 16 / 8 ∧
    4 + 32 / 8 ≤ (operandsOf (ask inst (asmEncI32 (List.replicate 8 0) 4 0))).buf.length ∧
    (operandsOf (ask inst (asmEncF32 (List.replicate 8 0) 5 0))).buf.length < 5 + 32 / 8 ∧
    0 + 64 / 8 ≤ (operandsOf (ask inst (asmEncI64 (List.replicate 8 0) 0 0))).buf.length ∧
    (operandsOf (ask inst (asmEncI64 (List.replicate 7 0) 0 0))).buf.length < 0 + 64 / 8 ∧
    opOf 0x1001 = 0x10 ∧ opOf 0x1101 = 0x11 ∧ opOf 0x1201 = 0x12 ∧ opOf 0x1301 = 0x13 ∧
    opOf 0x1401 = 0x14 := by decide

/-- Equal F32 and I32 operands (the second clause of ENC.F32). -/
theorem witness_EncF32Behaviour :
    (operandsOf (ask inst ⟨0x1400, { valueF32 := 0x3F800000, valueI32 := 0x3F800000 }⟩)).valueF32 =
      (operandsOf (ask inst ⟨0x1400, { valueF32 := 0x3F800000, valueI32 := 0x3F800000 }⟩)).valueI32 := rfl

/-- In range to the last byte, and one past it, for each width; and a word of each opcode. -/
theorem witness_DecodeBehaviour :
    1 + 8 / 8 ≤ (operandsOf (ask inst (asmDecI8 [2, 7] 1))).buf.length ∧
    (operandsOf (ask inst (asmDecI8 [2, 7] 2))).buf.length < 2 + 8 / 8 ∧
    (operandsOf (ask inst (asmDecI8 [2, 7] 1))).buf[1]? = some 7 ∧
    0 + 16 / 8 ≤ (operandsOf (ask inst (asmDecI16 [0xFF, 0x7F] 0))).buf.length ∧
    (operandsOf (ask inst (asmDecI16 [] 0))).buf.length < 0 + 16 / 8 ∧
    0 + 32 / 8 ≤ (operandsOf (ask inst (asmDecF32 [0, 0, 0x20, 0xC0] 0))).buf.length ∧
    (operandsOf (ask inst (asmDecI32 [0, 0, 0, 0] 1))).buf.length < 1 + 32 / 8 ∧
    0 + 64 / 8 ≤ (operandsOf (ask inst (asmDecI64 (List.replicate 8 0) 0))).buf.length ∧
    (operandsOf (ask inst (asmDecI64 (List.replicate 8 0) 1))).buf.length < 1 + 64 / 8 ∧
    opOf 0x1802 = 0x18 ∧ opOf 0x1902 = 0x19 ∧ opOf 0x1A02 = 0x1A ∧ opOf 0x1B02 = 0x1B ∧
    opOf 0x1C02 = 0x1C := by decide

theorem witness_CodecIsStateless :
    IsCodec (.encI8 0) ∧ inst.cfgOrder = (inRx .payload 0 (some 3) [] []).cfgOrder ∧
    operandsOf inst = operandsOf (inRx .payload 0 (some 3) [] []) := ⟨trivial, rfl, rfl⟩

theorem witness_CodecRoundTrip :
    CodecWidth 8 ∧ CodecWidth 16 ∧ CodecWidth 32 ∧ CodecWidth 64 ∧
    3 + 32 / 8 ≤ (List.replicate 7 (0 : Byte)).length := by
  unfold CodecWidth
  decide

/-- A 16-bit read that begins one byte before a 32-bit value: its byte 0 lies before the value, its byte 1 is
the value's first; and one that begins on the value's last byte. -/
theorem witness_MixedWidthReads :
    CodecWidth 32 ∧ CodecWidth 16 ∧ 1 + 32 / 8 ≤ (List.replicate 6 (0 : Byte)).length ∧
    0 + 16 / 8 ≤ (List.replicate 6 (0 : Byte)).length ∧ 4 + 16 / 8 ≤ (List.replicate 6 (0 : Byte)).length ∧
    (0 + 0 < 1) ∧ (1 ≤ 0 + 1 ∧ 0 + 1 < 1 + 32 / 8) ∧ (1 ≤ 4 + 0 ∧ 4 + 0 < 1 + 32 / 8) ∧
    1 + 32 / 8 ≤ 4 + 1 ∧ 4 ≤ (List.replicate 6 (0 : Byte)).length := by
  unfold CodecWidth
  decide

/-- Both ends of the range of an 8-bit integer. -/
theorem witness_SignedReadingOfPattern :
    1 ≤ 8 ∧ -(2 ^ (8 - 1)) ≤ (-128 : Int) ∧ (-128 : Int) < 2 ^ (8 - 1) ∧ -(2 ^ (8 - 1)) ≤ (127 : Int) ∧
    (127 : Int) < 2 ^ (8 - 1) := by decide

/-- Each clause: a mark kept, a fault response adding a reason, and one newly added. -/
theorem witness_FaultMarkIsSticky :
    (∃ t, step (ask { inst with faultMark := ⟨true, false⟩ } (asmRxb 0)) = .next t ∧
      t.faultMark.has .range = true) ∧
    (∃ t, step (ask inst ⟨0x0300, { }⟩) = .next t ∧ inst.faultMark.has .illegal = false ∧
      t.faultMark.has .illegal = true ∧ t.responses = [.faultIllegal] ∧
      statusCode (statusOf .faultIllegal) = faultCode .illegal) :=
  ⟨⟨_, rfl, rfl⟩, ⟨_, rfl, rfl, rfl, rfl, rfl⟩⟩

/-- The four causes, the second at both its boundaries. -/
theorem witness_TaxonomyOutcomesAreNoFaults :
    (inst.rxState = .sync ∧ (0 : Byte) ≠ inst.cfgMagic) ∧
    ((inRx .payloadLen 0 none [] []).rxState = .payloadLen ∧ (0x00 : Byte).toNat = 0 ∧
      0x80 ≤ (0x80 : Byte).toNat) ∧
    (∃ t, exec (.rxb 0x0C) (inRx .checksum 1 (some 3) [1, 2, 3] [7]) = .next t ∧
      Answered (inRx .checksum 1 (some 3) [1, 2, 3] [7]) .rejected t) ∧
    127 < (operandsOf (ask inst (asmTxp (List.replicate 128 0)))).payload.length :=
  ⟨by decide, by decide, ⟨_, rfl, rfl, rfl⟩, (List.length_replicate ..).ge⟩

theorem witness_ConfigurationIsNeverWritten : ∃ t, step (ask inst (asmTxp [1])) = .next t := ⟨_, rfl⟩

/-- Both clauses at their boundaries. -/
theorem witness_ConstructionGivesResetState :
    (1 ≤ 1 ∧ 1 ≤ 127) ∧ (1 ≤ 127 ∧ 127 ≤ 127) ∧ ¬ (1 ≤ 0 ∧ 0 ≤ 127) ∧ ¬ (1 ≤ 128 ∧ 128 ≤ 127) := by
  decide

theorem witness_ConstructionEstablishesInvariant :
    ∃ s, State.construct 0xA5 2 .be = .ok s := ⟨_, rfl⟩

theorem witness_StepKeepsInvariant :
    Inv (ask inst (asmRxb 0xA5)) ∧ ∃ t, step (ask inst (asmRxb 0xA5)) = .next t ∧ t ≠ ask inst (asmRxb 0xA5) :=
  ⟨⟨inst_inv.rx, inst_inv.scratch, inst_inv.mark⟩, _, rfl, by decide⟩

theorem witness_NoStepStops : Inv State.reset := reset_inv

theorem witness_StepKeepsMemoryCanonical :
    (inRx .payload 1 (some 3) [1] []).rxPayload.wf ∧ (inRx .payload 1 (some 3) [1] []).rxCks.wf ∧
    (inRx .payload 1 (some 3) [1] []).txScratch.wf ∧
    ∃ t, step (ask (inRx .payload 1 (some 3) [1] []) (asmRxb 2)) = .next t :=
  ⟨by decide, by decide, by decide, _, rfl⟩

theorem witness_NoiseLaw :
    inst.rxState = .sync ∧ ∀ b ∈ ([1, 2, 3, 4, 0x10, 0xFE] : List Byte), b ≠ inst.cfgMagic := by decide

theorem witness_AcceptanceLaw :
    inst.rxState = .sync ∧ 1 ≤ ([1, 2, 3] : List Byte).length ∧ ([1, 2, 3] : List Byte).length ≤ 127 := by
  decide

theorem witness_PipeliningLaw :
    RxReset inst ∧ ∀ p ∈ ([[1, 2, 3], [5]] : List (List Byte)), 1 ≤ p.length ∧ p.length ≤ 127 :=
  ⟨⟨rfl, rfl, rfl, rfl, rfl⟩, by decide⟩

/-- The first and the last corruptible byte of the frame of [1,2,3] (S3). -/
theorem witness_CorruptionLaw :
    inst.rxState = .sync ∧
    (2 ≤ 2 ∧ 2 < (frameOf inst.cfgMagic inst.cfgNck [1, 2, 3]).length ∧
      (frameOf inst.cfgMagic inst.cfgNck [1, 2, 3])[2]? ≠ some 0) ∧
    (2 ≤ 6 ∧ 6 < (frameOf inst.cfgMagic inst.cfgNck [1, 2, 3]).length ∧
      (frameOf inst.cfgMagic inst.cfgNck [1, 2, 3])[6]? ≠ some 0x0C) := by decide

theorem witness_BoundedResynchronisation :
    RxTable (inRx .payloadLen 0 none [] []) ∧ (List.replicate 255 (0x7F : Byte)).length = 255 ∧
    (inRx .payload 1 (some 3) [1] []).rxState ≠ .payloadLen ∧ RxTable (inRx .payload 1 (some 3) [1] []) :=
  ⟨⟨rfl, rfl, rfl, rfl⟩, List.length_replicate .., by decide, rxTable_payload⟩

theorem witness_FlushReturnsToSync :
    RxTable (inRx .checksum 1 (some 3) [1, 2, 3] [7]) ∧ (List.replicate 255 (0 : Byte)).length = 255 ∧
    ∀ b ∈ List.replicate 255 (0 : Byte), b ≠ (inRx .checksum 1 (some 3) [1, 2, 3] [7]).cfgMagic := by
  refine ⟨rxTable_checksum, List.length_replicate .., fun b hb => ?_⟩
  rw [List.eq_of_mem_replicate hb]
  decide

theorem witness_TransmittedFrameIsReceived :
    (ask inst (asmTxp [1, 2, 3])).cfgMagic = (inst .be).cfgMagic ∧
    (ask inst (asmTxp [1, 2, 3])).cfgNck = (inst .be).cfgNck ∧ (inst .be).rxState = .sync ∧
    1 ≤ (operandsOf (ask inst (asmTxp [1, 2, 3]))).payload.length ∧
    (operandsOf (ask inst (asmTxp [1, 2, 3]))).payload.length ≤ 127 := by decide

theorem witness_ResponsesDependOnRxContextOnly :
    SameRx inst (inst .be) ∧ inst.cfgMagic = (inst .be).cfgMagic ∧ inst.cfgNck = (inst .be).cfgNck ∧
    (∃ s', Feeds inst [0xA5, 3] s') ∧ ∃ t', Feeds (inst .be) [0xA5, 3] t' :=
  ⟨⟨rfl, rfl, rfl, rfl, rfl⟩, rfl, rfl, ⟨_, rfl⟩, ⟨_, rfl⟩⟩

theorem witness_UnitsAreIndependent :
    decode (asmTxp [1]).cw = .ok .txp ∧ (∀ c, Instr.txp ≠ .rxb c) ∧
    ∃ t, core.run 2 { inst with requests := asmRxb 0xA5 :: asmTxp [1] :: [] } = .next t :=
  ⟨by decide, fun _ h => Instr.noConfusion h, _, rfl⟩

theorem witness_EncodeIsIdempotentAndTxpDeterministic :
    CodecWidth 16 ∧ 1 + 16 / 8 ≤ (List.replicate 3 (0 : Byte)).length ∧
    inst.cfgMagic = (inst .be).cfgMagic ∧ inst.cfgNck = (inst .be).cfgNck ∧
    (operandsOf inst).payload = (operandsOf (inst .be)).payload := by
  unfold CodecWidth
  decide

end Sys2Proof.Tests
end

section
/-! PROOF. What a step does besides RXB, and that every step answers and keeps the invariant
(00_scope.md R12, R13; 10_state.md R31). -/

namespace Sys2Proof.Safety

open Sys2Proof.Machine

/-! ## The step by the request at the port -/

/-- A parked block's step leaves the state as it is. -/
theorem step_parked {s : State} (hr : s.requests = []) : step s = .next s := by
  simp only [step, pendingWord, hr]

/-- A request whose word decodes is executed, and nothing happens around it. -/
theorem step_of_decode_ok {s : State} {r : Request} {rest : List Request} {i : Instr}
    (hr : s.requests = r :: rest) (hd : decode r.cw = .ok i) : step s = exec i s := by
  simp only [step, pendingWord_cons s r rest hr, hd]

/-- A request whose word does not decode ends with FAULT_ILLEGAL. -/
theorem step_of_decode_error {s : State} {r : Request} {rest : List Request} {e : Illegal}
    (hr : s.requests = r :: rest) (hd : decode r.cw = .error e) :
    step s = .next (illegalWord r.cw s) := by
  simp only [step, pendingWord_cons s r rest hr, hd]

/-- How a request other than RXB is served: a response alone, a fault, or TXP's frame written to tx_scratch
with its response. -/
inductive ServedWithoutRx (s : State) : State → Prop
  | respond (r : Response) : ServedWithoutRx s (respond r s)
  | fault (f : FaultInfo) : ServedWithoutRx s (raiseFault f s)
  | frame (r : Response) (bs : List Byte) (hlen : bs.length ≤ Config.scratchSize) :
      ServedWithoutRx s (Machine.respond r { s with txScratch := s.txScratch.writeBytes 0 bs })

theorem codecEncode_served (w off : Nat) (v : BitVec w) (s : State) :
    ServedWithoutRx s (codecEncode w off v s) := by
  obtain ⟨-, h⟩ | ⟨-, h⟩ := codecEncode_cases w off v s
  · rw [h]; exact .respond _
  · rw [h]; exact .fault _

theorem codecDecode_served (w off : Nat) (s : State) : ServedWithoutRx s (codecDecode w off s) := by
  obtain ⟨-, h⟩ | ⟨-, h⟩ := codecDecode_cases w off s
  · rw [h]; exact .respond _
  · rw [h]; exact .fault _

/-- TXP completes; the longest frame, 2 + 127 + 127 bytes, fits tx_scratch. -/
theorem execTxp_served (s : State) : ∃ t, execTxp s = .next t ∧ ServedWithoutRx s t := by
  obtain ⟨-, h⟩ | ⟨hp, h⟩ := execTxp_cases s
  · exact ⟨_, h, .respond _⟩
  · refine ⟨_, h, .frame _ _ ?_⟩
    have hnck : s.cfgNck.toNat < 128 := s.cfgNck.val.isLt
    rw [frameOf_length, Config.scratchSize]
    omega

/-- Every operation but RXB completes from every state, and leaves the RX context alone. -/
theorem exec_served (i : Instr) (s : State) :
    (∃ b, exec i s = execRxb b s) ∨ ∃ t, exec i s = .next t ∧ ServedWithoutRx s t := by
  cases i with
  | rxb b => exact .inl ⟨b, rfl⟩
  | txp => exact .inr (execTxp_served s)
  | encI8 | encI16 | encI32 | encI64 | encF32 => exact .inr ⟨_, rfl, codecEncode_served ..⟩
  | decI8 | decI16 | decI32 | decI64 | decF32 => exact .inr ⟨_, rfl, codecDecode_served ..⟩

/-- Everything a step can be: parked, an RXB, or a request served without the RX framer. -/
theorem step_served (s : State) :
    step s = .next s ∨ (∃ b, step s = execRxb b s) ∨ ∃ t, step s = .next t ∧ ServedWithoutRx s t := by
  cases hr : s.requests with
  | nil => exact .inl (step_parked hr)
  | cons r rest =>
    right
    cases hd : decode r.cw with
    | error e => exact .inr ⟨_, step_of_decode_error hr hd, .fault _⟩
    | ok i =>
      rw [step_of_decode_ok hr hd]
      exact exec_served i s

/-! ## The table of 10_state.md R31 -/

/-- The table speaks of the RX context and CFG_NCK alone. -/
theorem RxTable.congr {s t : State} (h : RxTable s) (hnck : t.cfgNck = s.cfgNck) (hrx : SameRx s t) :
    RxTable t := by
  obtain ⟨hstate, hcount, hlen, hpay, hcks⟩ := hrx
  simpa only [RxTable, hnck, ← hstate, ← hcount, ← hlen, ← hpay, ← hcks] using h

/-- A count below a 7-bit bound does not wrap when it is raised by 1 (10_state.md R25). -/
theorem count_succ_of_lt {c n : BitVec 7} (hlt : c.toNat < n.toNat) : (c + 1).toNat = c.toNat + 1 :=
  count_succ c (by have := n.isLt; omega)

/-- A count below a bound that 1 more does not reach is still below it. -/
theorem count_succ_lt {c n : BitVec 7} (hlt : c.toNat < n.toNat) (hne : c + 1 ≠ n) :
    (c + 1).toNat < n.toNat := by
  have hne' : (c + 1).toNat ≠ n.toNat := fun e => hne (BitVec.eq_of_toNat_eq e)
  rw [count_succ_of_lt hlt] at hne' ⊢
  omega

theorem rxTable_enterSync (s : State) : RxTable (enterSync s) := ⟨rfl, rfl, rfl, rfl⟩

theorem ServedWithoutRx.rxTable {s t : State} (hs : ServedWithoutRx s t) (h : RxTable s) : RxTable t := by
  cases hs <;> exact h.congr rfl ⟨rfl, rfl, rfl, rfl, rfl⟩

theorem rxTable_rxbInSync {s : State} (b : Byte) (hstate : s.rxState = .sync) (h : RxTable s) :
    RxTable (rxbInSync b s) := by
  unfold rxbInSync
  split
  · have hrow := h
    simp only [RxTable, hstate] at hrow
    obtain ⟨-, hlen, hpay, hcks⟩ := hrow
    exact ⟨rfl, hlen, hpay, hcks⟩
  · exact h.congr rfl ⟨rfl, rfl, rfl, rfl, rfl⟩

theorem rxTable_rxbInPayloadLen {s : State} (b : Byte) (hstate : s.rxState = .payloadLen) (h : RxTable s) :
    RxTable (rxbInPayloadLen b s) := by
  unfold rxbInPayloadLen
  split
  · rename_i hacc
    simp only [RxTable, hstate] at h
    obtain ⟨-, -, -, hcks⟩ := h
    obtain ⟨hpos, hmax⟩ := (lengthAccepted_iff b).1 hacc
    have hlt : 0 < (lengthField b).toNat := by rw [lengthField_toNat b hmax]; exact hpos
    exact ⟨lengthField b, rfl, hlt, rfl, hcks⟩
  · exact rxTable_enterSync s

/-- In PAYLOAD the byte exists and the length is held, since rx_count < rx_len; the byte stored makes the
written run one longer. -/
theorem rxbInPayload_rxTable {s : State} (b : Byte) (hstate : s.rxState = .payload) (h : RxTable s) :
    ∃ t, rxbInPayload b s = .next t ∧ RxTable t := by
  simp only [RxTable, hstate] at h
  obtain ⟨len, hlen, hlt, hpay, hcks⟩ := h
  have hmax : len.toNat < 128 := len.isLt
  have hwritten : WrittenUpTo (s.rxPayload.write s.rxCount.toNat b) (s.rxCount + 1).toNat := by
    rw [count_succ_of_lt hlt]; exact hpay.write b
  refine ⟨_, rxbInPayload_next b s len (by omega) hlen, ?_⟩
  split
  · rename_i hlast
    rw [hlast] at hwritten
    exact ⟨len, hlen, by omega, s.cfgNck.pos, hwritten, by simp [WrittenUpTo, hcks]⟩
  · rename_i hmore
    simp only [RxTable, respond_rxState, hstate]
    exact ⟨len, hlen, count_succ_lt hlt hmore, hwritten, hcks⟩

/-- In CHECKSUM the byte exists, since rx_count < CFG_NCK; at the last one the payload and the trailer are
written as far as the comparison reads them. -/
theorem rxbInChecksum_rxTable {s : State} (b : Byte) (hstate : s.rxState = .checksum) (h : RxTable s) :
    ∃ t, rxbInChecksum b s = .next t ∧ RxTable t := by
  simp only [RxTable, hstate] at h
  obtain ⟨len, hlen, hpos, hlt, hpay, hcks⟩ := h
  have hwritten : WrittenUpTo (s.rxCks.write s.rxCount.toNat b) (s.rxCount + 1).toNat := by
    rw [count_succ_of_lt hlt]; exact hcks.write b
  by_cases hlast : s.rxCount + 1 = s.cfgNck.val
  · rw [hlast] at hwritten
    have hnext := rxbInChecksum_last b s len _ _ hlt hlast hlen (Memory.readBytes_written _ _ hpay)
      (Memory.readBytes_written _ _ hwritten)
    exact ⟨_, hnext, (ServedWithoutRx.respond _).rxTable (rxTable_enterSync _)⟩
  · refine ⟨_, rxbInChecksum_partial b s hlt hlast, ?_⟩
    simp only [RxTable, respond_rxState, hstate]
    exact ⟨len, hlen, hpos, count_succ_lt hlt hlast, hpay, hwritten⟩

/-- From a state of the table RXB completes, in a state of the table. -/
theorem execRxb_rxTable {s : State} (b : Byte) (h : RxTable s) :
    ∃ t, execRxb b s = .next t ∧ RxTable t := by
  unfold execRxb
  split
  · rename_i hstate; exact ⟨_, rfl, rxTable_rxbInSync b hstate h⟩
  · rename_i hstate; exact ⟨_, rfl, rxTable_rxbInPayloadLen b hstate h⟩
  · rename_i hstate; exact rxbInPayload_rxTable b hstate h
  · rename_i hstate; exact rxbInChecksum_rxTable b hstate h

/-- From a state of the table a step gives a next state, which is one of the table again. -/
theorem step_rxTable {s : State} (h : RxTable s) : ∃ t, step s = .next t ∧ RxTable t := by
  obtain hpark | ⟨b, hrxb⟩ | ⟨t, hstep, hserved⟩ := step_served s
  · exact ⟨s, hpark, h⟩
  · rw [hrxb]; exact execRxb_rxTable b h
  · exact ⟨t, hstep, hserved.rxTable h⟩

/-! ## tx_scratch and the fault record -/

/-- RXB changes the RX context and the port alone (41_rx_framer.md R140). -/
theorem execRxb_sameOutsideRx {s t : State} {b : Byte} (h : execRxb b s = .next t) : SameOutsideRx s t := by
  obtain ⟨-, rfl⟩ | ⟨-, rfl⟩ | ⟨-, len, -, -, rfl⟩ | ⟨-, -, -, rfl⟩ |
    ⟨-, -, -, len, p, rcv, -, -, -, rfl⟩ := execRxb_cases h
  · unfold rxbInSync; split <;> exact ⟨⟨rfl, rfl, rfl⟩, rfl, rfl, rfl⟩
  · unfold rxbInPayloadLen; split <;> exact ⟨⟨rfl, rfl, rfl⟩, rfl, rfl, rfl⟩
  · split <;> exact ⟨⟨rfl, rfl, rfl⟩, rfl, rfl, rfl⟩
  · exact ⟨⟨rfl, rfl, rfl⟩, rfl, rfl, rfl⟩
  · exact ⟨⟨rfl, rfl, rfl⟩, rfl, rfl, rfl⟩

/-- A run of bytes written from address 0 that fits tx_scratch keeps its form. -/
theorem ScratchForm.writeBytes {s : State} (h : ScratchForm s) (bs : List Byte)
    (hlen : bs.length ≤ Config.scratchSize) :
    ScratchForm { s with txScratch := s.txScratch.writeBytes 0 bs } := by
  obtain ⟨hwf, hdead⟩ := h
  refine ⟨Memory.writeBytes_wf bs _ 0 hwf, fun a ha => ?_⟩
  rw [Memory.read_writeBytes, if_neg (by omega)]
  exact hdead a ha

/-- A fault adds its reason to fault_mark and its information to the record. -/
theorem MarkForm.raiseFault {s : State} (h : MarkForm s) (f : FaultInfo) : MarkForm (raiseFault f s) := by
  intro r
  simp [h r, or_and_right, exists_or, eq_comm (a := r)]

theorem ServedWithoutRx.scratchForm {s t : State} (hs : ServedWithoutRx s t) (h : ScratchForm s) :
    ScratchForm t := by
  cases hs with
  | respond r => exact h
  | fault f => exact h
  | frame r bs hlen => exact h.writeBytes bs hlen

theorem ServedWithoutRx.markForm {s t : State} (hs : ServedWithoutRx s t) (h : MarkForm s) : MarkForm t := by
  cases hs with
  | respond r => exact h
  | fault f => exact h.raiseFault f
  | frame r bs hlen => exact h

/-! ## The invariant along a run -/

/-- What a step keeps if RXB and the other requests keep it. -/
theorem step_keeps {P : State → Prop} (hrxb : ∀ s t, SameOutsideRx s t → P s → P t)
    (hserved : ∀ s t, ServedWithoutRx s t → P s → P t) {s t : State} (hstep : step s = .next t) (h : P s) :
    P t := by
  obtain hpark | ⟨b, hb⟩ | ⟨t', hstep', hs⟩ := step_served s
  · cases hstep.symm.trans hpark; exact h
  · exact hrxb s t (execRxb_sameOutsideRx (hb.symm.trans hstep)) h
  · cases hstep.symm.trans hstep'; exact hserved s t hs h

theorem step_scratchForm {s t : State} (hstep : step s = .next t) (h : ScratchForm s) : ScratchForm t := by
  refine step_keeps (fun s t hsame h => ?_) (fun _ _ hs h => hs.scratchForm h) hstep h
  obtain ⟨-, hscratch, -⟩ := hsame
  rwa [ScratchForm, hscratch]

theorem step_markForm {s t : State} (hstep : step s = .next t) (h : MarkForm s) : MarkForm t := by
  refine step_keeps (fun s t hsame h => ?_) (fun _ _ hs h => hs.markForm h) hstep h
  obtain ⟨-, -, hmark, hinfo⟩ := hsame
  rwa [MarkForm, ← hmark, ← hinfo]

/-- From a state of the invariant a step gives a next state, which meets the invariant again. -/
theorem step_inv {s : State} (h : Inv s) : ∃ t, step s = .next t ∧ Inv t := by
  obtain ⟨t, hstep, hrx⟩ := step_rxTable h.rx
  exact ⟨t, hstep, hrx, step_scratchForm hstep h.scratch, step_markForm hstep h.mark⟩

/-- A run whose first step answers goes on from its next state. -/
theorem run_succ {s t : State} (k : Nat) (hstep : step s = .next t) : core.run (k + 1) s = core.run k t := by
  have hcore : core.step s = .next t := hstep
  simp only [Host.Core.run, hcore]

/-- Settles O48: by induction on the number of steps, each of which answers and keeps the invariant. -/
theorem noStepStops : Obligations.NoStepStops := by
  intro k
  induction k with
  | zero => exact fun s h => ⟨s, rfl, h⟩
  | succ k ih =>
    intro s h
    obtain ⟨t, hstep, ht⟩ := step_inv h
    rw [run_succ k hstep]
    exact ih t ht

/-- Settles O6: the word at the port is the first request's, and it decodes. -/
theorem stepRunsDecodedInstruction : Obligations.StepRunsDecodedInstruction :=
  fun _ _ _ _ hr hd => step_of_decode_ok hr hd

end Sys2Proof.Safety
end

section
/-! PROOF. The state along every step: what a request's end does to the port and the fault record, that no step
writes the configuration or breaks a space's form, what RXB reads, and construction (10_state.md R23 to R43). -/

namespace Sys2Proof.Safety

open Sys2Proof.Machine

/-! ## The invariant and the configuration -/

/-- What some next state of a step satisfies, its next state satisfies. -/
theorem of_step_next {P : State → Prop} {s t : State} (h : ∃ u, step s = .next u ∧ P u)
    (hstep : step s = .next t) : P t := by
  obtain ⟨u, hu, hP⟩ := h
  cases hstep.symm.trans hu
  exact hP

/-- Settles O47: a step from the table, or from the invariant, answers in the same. -/
theorem stepKeepsInvariant : Obligations.StepKeepsInvariant :=
  ⟨fun _ _ h hstep => of_step_next (step_rxTable h) hstep,
    fun _ _ h hstep => of_step_next (step_inv h) hstep⟩

theorem SameCfg.trans {s t u : State} (hst : SameCfg s t) (htu : SameCfg t u) : SameCfg s u := by
  obtain ⟨hmagic, hnck, horder⟩ := hst
  obtain ⟨hmagic', hnck', horder'⟩ := htu
  exact ⟨hmagic.trans hmagic', hnck.trans hnck', horder.trans horder'⟩

theorem ServedWithoutRx.sameCfg {s t : State} (hs : ServedWithoutRx s t) : SameCfg s t := by
  cases hs <;> exact ⟨rfl, rfl, rfl⟩

/-- Settles O43: RXB changes the RX context alone, and no other request's end writes the configuration. -/
theorem configurationIsNeverWritten : Obligations.ConfigurationIsNeverWritten := by
  intro s t hstep
  refine step_keeps (P := SameCfg s) (fun _ _ hsame h => ?_) (fun _ _ hs h => h.trans hs.sameCfg) hstep
    ⟨rfl, rfl, rfl⟩
  obtain ⟨hcfg, -⟩ := hsame
  exact h.trans hcfg

/-- Settles O8: the step of a parked block. -/
theorem parkedWithoutRequest : Obligations.ParkedWithoutRequest :=
  fun _ hr => step_parked hr

/-! ## The end of a request -/

/-- How a request ends: with a response that is no fault's and the fault record as it was, or with a fault
taken (10_state.md R39, 60_exceptions.md R201). -/
inductive RequestEnds (s : State) : State → Prop
  | answered {t : State} (x : Response) (hport : Answered s x t) (hfaults : SameFaults s t)
      (hrange : x ≠ .faultRange) (hillegal : x ≠ .faultIllegal) : RequestEnds s t
  | faulted (f : FaultInfo) : RequestEnds s (raiseFault f s)

/-- RXB answers NONE, VALID or REJECTED (41_rx_framer.md R140). -/
theorem execRxb_answered {s t : State} {b : Byte} (h : execRxb b s = .next t) :
    ∃ x, Answered s x t ∧ x ≠ .faultRange ∧ x ≠ .faultIllegal := by
  obtain ⟨-, rfl⟩ | ⟨-, rfl⟩ | ⟨-, len, -, -, rfl⟩ | ⟨-, -, -, rfl⟩ |
    ⟨-, -, -, len, p, rcv, -, -, -, rfl⟩ := execRxb_cases h
  · refine ⟨.none, ?_, nofun, nofun⟩
    unfold rxbInSync; split <;> exact ⟨rfl, rfl⟩
  · refine ⟨.none, ?_, nofun, nofun⟩
    unfold rxbInPayloadLen; split <;> exact ⟨rfl, rfl⟩
  · refine ⟨.none, ?_, nofun, nofun⟩
    split <;> exact ⟨rfl, rfl⟩
  · exact ⟨.none, ⟨rfl, rfl⟩, nofun, nofun⟩
  · refine ⟨_, ⟨rfl, rfl⟩, ?_⟩
    split <;> exact ⟨nofun, nofun⟩

theorem execRxb_requestEnds {s t : State} {b : Byte} (h : execRxb b s = .next t) : RequestEnds s t := by
  obtain ⟨x, hport, hrange, hillegal⟩ := execRxb_answered h
  obtain ⟨-, -, hfaults⟩ := execRxb_sameOutsideRx h
  exact .answered x hport hfaults hrange hillegal

theorem execTxp_requestEnds {s t : State} (h : execTxp s = .next t) : RequestEnds s t := by
  obtain ⟨-, hlong⟩ | ⟨-, hframe⟩ := execTxp_cases s
  · cases h.symm.trans hlong
    exact .answered .failLen ⟨rfl, rfl⟩ ⟨rfl, rfl⟩ nofun nofun
  · cases h.symm.trans hframe
    exact .answered (.okFrame _) ⟨rfl, rfl⟩ ⟨rfl, rfl⟩ nofun nofun

theorem codecEncode_requestEnds (w off : Nat) (v : BitVec w) (s : State) :
    RequestEnds s (codecEncode w off v s) := by
  obtain ⟨-, h⟩ | ⟨-, h⟩ := codecEncode_cases w off v s
  · rw [h]; exact .answered (.okBuf _) ⟨rfl, rfl⟩ ⟨rfl, rfl⟩ nofun nofun
  · rw [h]; exact .faulted _

theorem codecDecode_requestEnds (w off : Nat) (s : State) : RequestEnds s (codecDecode w off s) := by
  obtain ⟨-, h⟩ | ⟨-, h⟩ := codecDecode_cases w off s
  · rw [h]; exact .answered (.okValue w _) ⟨rfl, rfl⟩ ⟨rfl, rfl⟩ nofun nofun
  · rw [h]; exact .faulted _

theorem exec_requestEnds {i : Instr} {s t : State} (h : exec i s = .next t) : RequestEnds s t := by
  cases i with
  | rxb b => exact execRxb_requestEnds h
  | txp => exact execTxp_requestEnds h
  | encI8 | encI16 | encI32 | encI64 | encF32 => cases h; exact codecEncode_requestEnds ..
  | decI8 | decI16 | decI32 | decI64 | decF32 => cases h; exact codecDecode_requestEnds ..

/-- A step that gives a next state leaves a parked block as it is, or ends the request at the port. -/
theorem step_parked_or_requestEnds {s t : State} (hstep : step s = .next t) :
    (s.requests = [] ∧ t = s) ∨ RequestEnds s t := by
  obtain hpark | ⟨r, rest, -, ⟨e, -, rfl⟩ | ⟨i, -, hexec⟩⟩ := step_cases hstep
  · exact .inl hpark
  · exact .inr (.faulted _)
  · exact .inr (exec_requestEnds hexec)

theorem RequestEnds.exists_answered {s t : State} (h : RequestEnds s t) : ∃ x, Answered s x t := by
  cases h with
  | answered x hport => exact ⟨x, hport⟩
  | faulted f => exact ⟨faultResponse f, rfl, rfl⟩

/-! ## The port -/

/-- Settles O9: from the table the step gives a next state, and a request at the port ends with one
response. -/
theorem everyRequestIsAnswered : Obligations.EveryRequestIsAnswered := by
  intro s r rest htable hr
  obtain ⟨t, hstep, -⟩ := step_rxTable htable
  obtain ⟨hnone, -⟩ | hends := step_parked_or_requestEnds hstep
  · cases hr.symm.trans hnone
  · obtain ⟨x, hreq, hresp⟩ := hends.exists_answered
    exact ⟨t, x, hstep, by rw [hreq, hr, List.tail_cons], hresp⟩

theorem step_responses {s t : State} (hstep : step s = .next t) :
    ∃ later, t.responses = s.responses ++ later := by
  obtain ⟨-, rfl⟩ | hends := step_parked_or_requestEnds hstep
  · exact ⟨[], (List.append_nil _).symm⟩
  · obtain ⟨x, -, hresp⟩ := hends.exists_answered
    exact ⟨[x], hresp⟩

/-- A run that ends in a next state goes through the next state of its first step. -/
theorem exists_step_of_run_succ {k : Nat} {s t : State} (h : core.run (k + 1) s = .next t) :
    ∃ u, step s = .next u ∧ core.run k u = .next t := by
  have hcore : core.step s = step s := rfl
  cases hs : step s with
  | next u => exact ⟨u, rfl, by rwa [run_succ k hs] at h⟩
  | fault | refused => simp [Host.Core.run, hcore, hs] at h

/-- Settles O10: by induction on the number of steps, each of which only adds responses at the end. -/
theorem responsesGivenNeverChange : Obligations.ResponsesGivenNeverChange := by
  intro k
  induction k with
  | zero => intro s t h; cases h; exact ⟨[], (List.append_nil _).symm⟩
  | succ k ih =>
    intro s t h
    obtain ⟨u, hstep, hrun⟩ := exists_step_of_run_succ h
    obtain ⟨xs, hxs⟩ := step_responses hstep
    obtain ⟨ys, hys⟩ := ih u t hrun
    exact ⟨xs ++ ys, by rw [hys, hxs, List.append_assoc]⟩

/-! ## Status codes and fault_mark -/

theorem statusCode_ne_seven (x : Status) : statusCode x ≠ 7 := by
  cases x <;> decide

/-- Settles O11: the seven statuses' codes, none of which is 7. -/
theorem statusCodesAsNumbered : Obligations.StatusCodesAsNumbered :=
  ⟨fun r => statusCode_ne_seven (statusOf r), rfl, fun _ => rfl, rfl, fun _ => rfl, fun _ => rfl,
    fun _ _ => rfl, rfl, rfl, rfl⟩

theorem faultCode_injective {q r : FaultReason} (h : faultCode q = faultCode r) : q = r := by
  revert h
  cases q <;> cases r <;> decide

/-- The status code of a fault's response is the code of its reason (60_exceptions.md R201). -/
theorem statusCode_faultResponse (f : FaultInfo) :
    statusCode (statusOf (faultResponse f)) = faultCode (reasonOf f) := by
  cases f <;> rfl

/-- The responses with a fault's code are the two faults' (10_state.md R40). -/
theorem statusCode_ne_faultCode {x : Response} (hrange : x ≠ .faultRange) (hillegal : x ≠ .faultIllegal)
    (q : FaultReason) : statusCode (statusOf x) ≠ faultCode q := by
  cases x with
  | faultRange => exact absurd rfl hrange
  | faultIllegal => exact absurd rfl hillegal
  | none | valid | rejected | okFrame | okBuf | okValue | failLen =>
    cases q <;> simp [statusOf, statusCode, faultCode]

theorem initial_faultMark_has (magic : Byte) (nck : Nck) (order : ByteOrder) (q : FaultReason) :
    (State.initial magic nck order).faultMark.has q = false := by
  cases q <;> rfl

/-- Settles O41: a parked step and a request that ends without a fault keep fault_mark, and the response of the
latter has no fault's code; a fault adds the reason whose code its response has. -/
theorem faultMarkIsSticky : Obligations.FaultMarkIsSticky := by
  refine ⟨initial_faultMark_has, fun s t q hstep => ?_⟩
  obtain ⟨-, rfl⟩ | hends := step_parked_or_requestEnds hstep
  · exact ⟨id, fun x hx => by simp at hx, fun hno hyes => by simp [hno] at hyes⟩
  · cases hends with
    | answered y hport hfaults hrange hillegal =>
      obtain ⟨-, hresp⟩ := hport
      obtain ⟨hmark, -⟩ := hfaults
      rw [← hmark]
      refine ⟨id, fun x hx hcode => ?_, fun hno hyes => by simp [hno] at hyes⟩
      obtain rfl : y = x := by simpa [hresp] using hx
      exact absurd hcode (statusCode_ne_faultCode hrange hillegal q)
    | faulted f =>
      simp only [raiseFault_faultMark, raiseFault_responses, FaultMark.has_add, Bool.or_eq_true,
        decide_eq_true_eq]
      refine ⟨.inl, fun x hx hcode => ?_, fun hno hyes => ⟨_, rfl, ?_⟩⟩
      · obtain rfl : faultResponse f = x := by simpa using hx
        rw [statusCode_faultResponse] at hcode
        exact .inr (faultCode_injective hcode).symm
      · obtain rfl : q = reasonOf f := by simpa [hno] using hyes
        exact statusCode_faultResponse f

/-! ## The form of the storage spaces -/

/-- Every storage space is in canonical form. -/
def Canonical (s : State) : Prop := s.rxPayload.wf ∧ s.rxCks.wf ∧ s.txScratch.wf

theorem execRxb_canonical {s t : State} {b : Byte} (h : Canonical s) (hexec : execRxb b s = .next t) :
    Canonical t := by
  obtain ⟨hpay, hcks, hscratch⟩ := h
  obtain ⟨-, rfl⟩ | ⟨-, rfl⟩ | ⟨-, len, -, -, rfl⟩ | ⟨-, -, -, rfl⟩ |
    ⟨-, -, -, len, p, rcv, -, -, -, rfl⟩ := execRxb_cases hexec
  · unfold rxbInSync; split <;> exact ⟨hpay, hcks, hscratch⟩
  · unfold rxbInPayloadLen
    split
    · exact ⟨Memory.allDead_wf, hcks, hscratch⟩
    · exact ⟨Memory.allDead_wf, Memory.allDead_wf, hscratch⟩
  · split <;> exact ⟨Memory.write_wf _ _ b hpay, hcks, hscratch⟩
  · exact ⟨hpay, Memory.write_wf _ _ b hcks, hscratch⟩
  · exact ⟨Memory.allDead_wf, Memory.allDead_wf, hscratch⟩

theorem ServedWithoutRx.canonical {s t : State} (hs : ServedWithoutRx s t) (h : Canonical s) :
    Canonical t := by
  cases hs with
  | respond r => exact h
  | fault f => exact h
  | frame r bs hlen =>
    obtain ⟨hpay, hcks, hscratch⟩ := h
    exact ⟨hpay, hcks, Memory.writeBytes_wf bs _ 0 hscratch⟩

/-- Settles O49: RXB stores single bytes or discards a space, and TXP writes a run of bytes. -/
theorem stepKeepsMemoryCanonical : Obligations.StepKeepsMemoryCanonical := by
  intro s t hpay hcks hscratch hstep
  have h : Canonical s := ⟨hpay, hcks, hscratch⟩
  show Canonical t
  obtain hpark | ⟨b, hrxb⟩ | ⟨u, hu, hserved⟩ := step_served s
  · cases hstep.symm.trans hpark; exact h
  · exact execRxb_canonical h (hrxb.symm.trans hstep)
  · cases hstep.symm.trans hu; exact hserved.canonical h

/-! ## What RXB reads -/

/-- Two states agree on everything RXB reads: the RX context, MAGIC and NCK. -/
def RxAgree (s t : State) : Prop := SameRx s t ∧ s.cfgMagic = t.cfgMagic ∧ s.cfgNck = t.cfgNck

theorem execRxb_sync {s : State} (h : s.rxState = .sync) (b : Byte) :
    execRxb b s = .next (rxbInSync b s) := by
  simp only [execRxb, h]

theorem execRxb_payloadLen {s : State} (h : s.rxState = .payloadLen) (b : Byte) :
    execRxb b s = .next (rxbInPayloadLen b s) := by
  simp only [execRxb, h]

theorem execRxb_payload {s : State} (h : s.rxState = .payload) (b : Byte) :
    execRxb b s = rxbInPayload b s := by
  simp only [execRxb, h]

theorem execRxb_checksum {s : State} (h : s.rxState = .checksum) (b : Byte) :
    execRxb b s = rxbInChecksum b s := by
  simp only [execRxb, h]

/-- From states that agree on what RXB reads, RXB gives one response and states that agree again: both take the
same rule of R140, on equal values. -/
theorem execRxb_agree {s t s' t' : State} {b : Byte} (h : RxAgree s t) (hs : execRxb b s = .next s')
    (ht : execRxb b t = .next t') : RxAgree s' t' ∧ ∃ x, Answered s x s' ∧ Answered t x t' := by
  obtain ⟨⟨est, ecount, elen, epay, ecks⟩, emagic, enck⟩ := h
  obtain ⟨hstate, rfl⟩ | ⟨hstate, rfl⟩ | ⟨hstate, len, hlen, hcount, rfl⟩ | ⟨hstate, hcount, hmore, rfl⟩ |
    ⟨hstate, hcount, hlast, len, p, rcv, hlen, hp, hrcv, rfl⟩ := execRxb_cases hs
  · cases ht.symm.trans (execRxb_sync (est ▸ hstate) b)
    rw [rxbInSync, rxbInSync, emagic]
    split
    · exact ⟨⟨⟨rfl, rfl, elen, epay, ecks⟩, rfl, enck⟩, .none, ⟨rfl, rfl⟩, ⟨rfl, rfl⟩⟩
    · exact ⟨⟨⟨est, ecount, elen, epay, ecks⟩, emagic, enck⟩, .none, ⟨rfl, rfl⟩, ⟨rfl, rfl⟩⟩
  · cases ht.symm.trans (execRxb_payloadLen (est ▸ hstate) b)
    unfold rxbInPayloadLen
    split
    · exact ⟨⟨⟨rfl, rfl, rfl, rfl, ecks⟩, emagic, enck⟩, .none, ⟨rfl, rfl⟩, ⟨rfl, rfl⟩⟩
    · exact ⟨⟨⟨rfl, rfl, rfl, rfl, rfl⟩, emagic, enck⟩, .none, ⟨rfl, rfl⟩, ⟨rfl, rfl⟩⟩
  · rw [ecount] at hcount
    rw [execRxb_payload (est ▸ hstate), rxbInPayload_next b t len hcount (elen ▸ hlen)] at ht
    cases ht
    rw [ecount, epay]
    split
    · exact ⟨⟨⟨rfl, rfl, elen, rfl, ecks⟩, emagic, enck⟩, .none, ⟨rfl, rfl⟩, ⟨rfl, rfl⟩⟩
    · exact ⟨⟨⟨est, rfl, elen, rfl, ecks⟩, emagic, enck⟩, .none, ⟨rfl, rfl⟩, ⟨rfl, rfl⟩⟩
  · rw [ecount, enck] at hcount hmore
    rw [execRxb_checksum (est ▸ hstate), rxbInChecksum_partial b t hcount hmore] at ht
    cases ht
    rw [ecount, ecks]
    exact ⟨⟨⟨est, rfl, elen, epay, rfl⟩, emagic, enck⟩, .none, ⟨rfl, rfl⟩, ⟨rfl, rfl⟩⟩
  · rw [ecount, enck] at hcount hlast
    rw [ecount, ecks, enck] at hrcv
    rw [execRxb_checksum (est ▸ hstate),
      rxbInChecksum_last b t len p rcv hcount hlast (elen ▸ hlen) (epay ▸ hp) hrcv] at ht
    cases ht
    rw [enck]
    exact ⟨⟨⟨rfl, rfl, rfl, rfl, rfl⟩, emagic, rfl⟩, _, ⟨rfl, rfl⟩, ⟨rfl, rfl⟩⟩

theorem decode_asmRxb (b : Byte) : decode (asmRxb b).cw = .ok (.rxb b) := by
  simp [decode, asmRxb, requestOf, encode]

/-- With `RXB b` first at the port the step is RXB of b. -/
theorem step_asmRxb {s : State} {b : Byte} {rest : List Request} (hr : s.requests = asmRxb b :: rest) :
    step s = execRxb b s :=
  step_of_decode_ok hr (decode_asmRxb b)

/-- Runs over the same RXB requests, from states that agree on what RXB reads, give the same responses. -/
theorem run_asmRxs_agree (bs : List Byte) {s t s' t' : State} {rest rest' : List Request} (h : RxAgree s t)
    (hrs : s.requests = asmRxs bs ++ rest) (hrt : t.requests = asmRxs bs ++ rest')
    (hs : core.run bs.length s = .next s') (ht : core.run bs.length t = .next t') :
    RxAgree s' t' ∧ ∃ rs, s'.responses = s.responses ++ rs ∧ t'.responses = t.responses ++ rs := by
  induction bs generalizing s t with
  | nil =>
    cases hs
    cases ht
    exact ⟨h, [], (List.append_nil _).symm, (List.append_nil _).symm⟩
  | cons b bs ih =>
    obtain ⟨u, hu, hs⟩ := exists_step_of_run_succ hs
    obtain ⟨v, hv, ht⟩ := exists_step_of_run_succ ht
    rw [step_asmRxb hrs] at hu
    rw [step_asmRxb hrt] at hv
    obtain ⟨huv, x, ⟨hureq, huresp⟩, hvreq, hvresp⟩ := execRxb_agree h hu hv
    rw [hrs] at hureq
    rw [hrt] at hvreq
    obtain ⟨hend, rs, hsresp, htresp⟩ := ih huv hureq hvreq hs ht
    exact ⟨hend, x :: rs, by simp [hsresp, huresp], by simp [htresp, hvresp]⟩

/-- Settles O57: by induction on the bytes, since RXB reads the RX context, MAGIC and NCK alone. -/
theorem responsesDependOnRxContextOnly : Obligations.ResponsesDependOnRxContextOnly := by
  intro s t s' t' bs hrx hmagic hnck hs ht
  obtain ⟨⟨hrx', -⟩, hresp⟩ :=
    run_asmRxs_agree (s := feeding bs s) (t := feeding bs t) bs ⟨hrx, hmagic, hnck⟩ rfl rfl hs ht
  exact ⟨hrx', hresp⟩

/-! ## Construction -/

/-- A number in 1..127 is a legal NCK. -/
theorem ofNat?_of_legal {n : Nat} (h : 1 ≤ n ∧ n ≤ 127) : ∃ k, Nck.ofNat? n = some k ∧ k.toNat = n := by
  refine ⟨_, dif_pos h, ?_⟩
  rw [Nck.toNat, BitVec.toNat_ofNat]
  omega

theorem ofNat?_toNat (k : Nck) : Nck.ofNat? k.toNat = some k := by
  obtain ⟨val, pos⟩ := k
  obtain ⟨⟨val', pos'⟩, hsome, heq⟩ := ofNat?_of_legal (n := val.toNat) ⟨pos, by omega⟩
  cases BitVec.eq_of_toNat_eq heq
  exact hsome

theorem construct_of_ofNat? {n : Nat} {k : Nck} (h : Nck.ofNat? n = some k) (magic : Byte)
    (order : ByteOrder) : State.construct magic n order = .ok (State.initial magic k order) := by
  simp only [State.construct, h]

theorem construct_refused {n : Nat} (h : ¬ (1 ≤ n ∧ n ≤ 127)) (magic : Byte) (order : ByteOrder) :
    State.construct magic n order = .error (.notAnInstance n) := by
  have hnone : Nck.ofNat? n = none := dif_neg h
  simp only [State.construct, hnone]

theorem initial_inv (magic : Byte) (nck : Nck) (order : ByteOrder) : Inv (State.initial magic nck order) where
  rx := ⟨rfl, rfl, rfl, rfl⟩
  scratch := ⟨List.Pairwise.nil, fun _ _ => rfl⟩
  mark r := by rw [initial_faultMark_has]; simp [State.initial]

/-- Settles O44: an NCK in 1..127 is accepted, any other refused. -/
theorem constructionGivesResetState : Obligations.ConstructionGivesResetState := by
  intro magic nck order
  refine ⟨fun h => ?_, fun h => construct_refused h magic order⟩
  obtain ⟨k, hk, htoNat⟩ := ofNat?_of_legal h
  exact ⟨_, construct_of_ofNat? hk magic order, rfl, htoNat, rfl, rfl, rfl, rfl, fun _ => rfl, fun _ => rfl,
    fun _ => rfl, initial_faultMark_has magic k order⟩

/-- Settles O45: the opaque NCK of Config is the legal value of its own number. -/
theorem resetIsAConstruction : Obligations.ResetIsAConstruction :=
  construct_of_ofNat? (ofNat?_toNat Config.nck) Config.magic .le

/-- Settles O46: a construction that is not refused gives an initial state. -/
theorem constructionEstablishesInvariant : Obligations.ConstructionEstablishesInvariant := by
  intro magic nck order s hs
  by_cases h : 1 ≤ nck ∧ nck ≤ 127
  · obtain ⟨k, hk, -⟩ := ofNat?_of_legal h
    cases (construct_of_ofNat? hk magic order).symm.trans hs
    exact initial_inv magic k order
  · cases (construct_refused h magic order).symm.trans hs

end Sys2Proof.Safety
end

section
/-! PROOF. The codec buffer as memory: what a decode of any width and order reads byte by byte after an encode,
and that the RX framer and the other units share no state (20_memory.md R63 to R74). -/

namespace Sys2Proof.Safety

open Sys2Proof.Machine

/-! ## Byte images (20_memory.md R63) -/

theorem CodecWidth.dvd {w : Nat} (h : CodecWidth w) : 8 ∣ w := by
  obtain rfl | rfl | rfl | rfl := h <;> decide

/-- The two orders place the same bytes from opposite ends. -/
theorem imageByte_be_eq_le {w k k' : Nat} (v : BitVec w) (h : 8 * (k + k' + 1) = w) :
    imageByte .be w v k = imageByte .le w v k' := by
  have hpos : w - 8 - 8 * k = 8 * k' := by omega
  rw [imageByte, imageByte, hpos]

/-- A pattern is determined by its little-endian image. -/
theorem eq_of_imageByte_le {w : Nat} (hw : 8 ∣ w) {u v : BitVec w}
    (h : ∀ k, k < w / 8 → imageByte .le w u k = imageByte .le w v k) : u = v := by
  refine BitVec.eq_of_getLsbD_eq fun i hi => ?_
  have hbyte := congrArg (·.getLsbD (i % 8)) (h (i / 8) (by omega))
  have hmod : i % 8 < 8 := Nat.mod_lt i (by decide)
  simpa only [imageByte, BitVec.getLsbD_extractLsb', hmod, decide_true, Bool.true_and, Nat.div_add_mod]
    using hbyte

/-- A pattern is determined by its image, in either order. -/
theorem eq_of_imageByte (o : ByteOrder) {w : Nat} (hw : 8 ∣ w) {u v : BitVec w}
    (h : ∀ k, k < w / 8 → imageByte o w u k = imageByte o w v k) : u = v := by
  cases o with
  | le => exact eq_of_imageByte_le hw h
  | be =>
    refine eq_of_imageByte_le hw fun k hk => ?_
    have hends : 8 * (w / 8 - 1 - k + k + 1) = w := by omega
    rw [← imageByte_be_eq_le u hends, ← imageByte_be_eq_le v hends]
    exact h _ (by omega)

/-- Where the w' bits that begin j bytes into the image of a w-bit pattern lie in it. -/
def windowStart (o : ByteOrder) (w w' j : Nat) : Nat :=
  match o with
  | .le => 8 * j
  | .be => w - w' - 8 * j

/-- The image of a window is the run of the image's bytes that begins at the window. -/
theorem imageByte_window (o : ByteOrder) {w w' j k : Nat} (v : BitVec w) (hfit : 8 * j + w' ≤ w)
    (hk : 8 * (k + 1) ≤ w') :
    imageByte o w' (v.extractLsb' (windowStart o w w' j) w') k = imageByte o w v (j + k) := by
  refine BitVec.eq_of_getLsbD_eq fun i hi => ?_
  cases o with
  | le =>
    have hlt : 8 * k + i < w' := by omega
    have hpos : 8 * j + (8 * k + i) = 8 * (j + k) + i := by omega
    simp only [imageByte, windowStart, BitVec.getLsbD_extractLsb', hlt, hpos, decide_true, Bool.true_and]
  | be =>
    have hlt : w' - 8 - 8 * k + i < w' := by omega
    have hpos : w - w' - 8 * j + (w' - 8 - 8 * k + i) = w - 8 - 8 * (j + k) + i := by omega
    simp only [imageByte, windowStart, BitVec.getLsbD_extractLsb', hlt, hpos, decide_true, Bool.true_and]

/-! ## A decode after an encode -/

/-- The image of what a decode reads is the run of bytes that stands in the buffer (40_codec.md R113). -/
theorem imageByte_decodeBuf (o : ByteOrder) {w : Nat} (hw : 8 ∣ w) {buf : List Byte} {off k : Nat}
    (hin : off + w / 8 ≤ buf.length) (hk : k < w / 8) :
    some (imageByte o w (decodeBuf o w buf off) k) = buf[off + k]? := by
  obtain ⟨n, rfl⟩ := hw
  rw [Nat.mul_div_cancel_left n (by decide)] at hin hk
  rw [decodeBuf, Nat.mul_div_cancel_left n (by decide),
    imageByte_patternOf o n _ k (memRead_length buf off n hin) hk, memRead_getElem? buf off n k hk]

section
variable (o o' : ByteOrder) {w w' off off' k : Nat} {buf : List Byte} (v : BitVec w)
  (hw' : 8 ∣ w') (hin : off + w / 8 ≤ buf.length) (hin' : off' + w' / 8 ≤ buf.length) (hk : k < w' / 8)
include hw' hin hin' hk

/-- The bytes a decode in any order reads after an encode are the bytes of the encoded buffer. -/
theorem imageByte_decodeBuf_encodeBuf :
    some (imageByte o' w' (decodeBuf o' w' (encodeBuf o w buf off v) off') k) =
      (encodeBuf o w buf off v)[off' + k]? := by
  obtain ⟨hlength, -⟩ := encodeBuf_encoded o w v buf off hin
  exact imageByte_decodeBuf o' hw' (hlength ▸ hin') hk

/-- Where the ranges overlap, a decode in any order reads the bytes of the encoded image. -/
theorem imageByte_decodeBuf_encodeBuf_inside (hlo : off ≤ off' + k) (hhi : off' + k < off + w / 8) :
    imageByte o' w' (decodeBuf o' w' (encodeBuf o w buf off v) off') k =
      imageByte o w v (off' + k - off) := by
  obtain ⟨-, himage, -⟩ := encodeBuf_encoded o w v buf off hin
  have hbyte := (holdsImage_iff ..).1 himage (off' + k - off) (by omega)
  rw [Nat.add_sub_cancel' hlo] at hbyte
  exact Option.some.inj ((imageByte_decodeBuf_encodeBuf o o' v hw' hin hin' hk).trans hbyte)

/-- Outside the encoded range a decode reads the bytes that stood there before. -/
theorem imageByte_decodeBuf_encodeBuf_outside (hout : off' + k < off ∨ off + w / 8 ≤ off' + k) :
    some (imageByte o' w' (decodeBuf o' w' (encodeBuf o w buf off v) off') k) = buf[off' + k]? := by
  obtain ⟨-, -, hrest⟩ := encodeBuf_encoded o w v buf off hin
  exact (imageByte_decodeBuf_encodeBuf o o' v hw' hin hin' hk).trans (hrest _ hout)

end

/-- A decode inside the encoded range reads the window of the value at its place. -/
theorem decodeBuf_encodeBuf_window (o : ByteOrder) {w w' off j : Nat} {buf : List Byte} (v : BitVec w)
    (hw' : 8 ∣ w') (hin : off + w / 8 ≤ buf.length) (hfit : 8 * j + w' ≤ w) :
    decodeBuf o w' (encodeBuf o w buf off v) (off + j) = v.extractLsb' (windowStart o w w' j) w' := by
  refine eq_of_imageByte o hw' fun k hk => ?_
  rw [imageByte_window o v hfit (by omega),
    imageByte_decodeBuf_encodeBuf_inside o o v hw' hin (by omega) hk (by omega) (by omega),
    Nat.add_assoc, Nat.add_sub_cancel_left]

/-- Settles O38: the byte a decode reads is the one that stands there; inside a 32-bit value the bytes make up
a window of its bits. -/
theorem mixedWidthReads : Obligations.MixedWidthReads := by
  refine ⟨fun o w w' buf off off' v _ hw' hin hin' k hk => ⟨?_, ?_⟩, fun buf off v hin => ?_,
    fun buf hin => ?_⟩
  · exact imageByte_decodeBuf_encodeBuf_inside o o v hw'.dvd hin hin' hk
  · exact imageByte_decodeBuf_encodeBuf_outside o o v hw'.dvd hin hin' hk
  · have hread (o : ByteOrder) {w' j : Nat} (hw' : 8 ∣ w') (hfit : 8 * j + w' ≤ 32) :=
      decodeBuf_encodeBuf_window o v hw' hin hfit
    exact ⟨fun j hj => ⟨hread .le (by decide) (by omega), hread .be (by decide) (by omega)⟩,
      fun j hj => ⟨hread .le (by decide) (by omega), hread .be (by decide) (by omega)⟩⟩
  · have hread (j : Nat) (hfit : 8 * j + 16 ≤ 32) :=
      decodeBuf_encodeBuf_window (off := 0) .le (0x11223344 : BitVec 32) (by decide) hin hfit
    exact ⟨hread 0 (by decide), hread 2 (by decide)⟩

/-- Settles O39: each order reads the image the other placed, whose bytes stand the other way round. -/
theorem mismatchedOrderReversesBytes : Obligations.MismatchedOrderReversesBytes := by
  intro w buf off v hwidth hin k hk
  have hw := hwidth.dvd
  have hread (o o' : ByteOrder) {k : Nat} (hk : k < w / 8) :
      imageByte o' w (decodeBuf o' w (encodeBuf o w buf off v) off) k = imageByte o w v k := by
    rw [imageByte_decodeBuf_encodeBuf_inside o o' v hw hin hin hk (by omega) (by omega),
      Nat.add_sub_cancel_left]
  have hends : 8 * (w / 8 - 1 - k + k + 1) = w := by omega
  have hends' : 8 * (k + (w / 8 - 1 - k) + 1) = w := by omega
  refine ⟨?_, hread .be .le hk⟩
  calc imageByte .le w (decodeBuf .be w (encodeBuf .le w buf off v) off) k
      = imageByte .be w (decodeBuf .be w (encodeBuf .le w buf off v) off) (w / 8 - 1 - k) :=
        (imageByte_be_eq_le _ hends).symm
    _ = imageByte .le w v (w / 8 - 1 - k) := hread .le .be (by omega)
    _ = imageByte .be w v k := (imageByte_be_eq_le v hends').symm

/-- Encoding a value where its image stands already changes nothing. -/
theorem encodeBuf_of_holdsImage {o : ByteOrder} {w off : Nat} {v : BitVec w} {buf : List Byte}
    (hin : off + w / 8 ≤ buf.length) (h : HoldsImage o w v buf off) : encodeBuf o w buf off v = buf := by
  obtain ⟨-, himage, hrest⟩ := encodeBuf_encoded o w v buf off hin
  rw [holdsImage_iff] at h himage
  refine List.ext_getElem? fun a => ?_
  by_cases hout : a < off ∨ off + w / 8 ≤ a
  · exact hrest a hout
  · obtain ⟨k, rfl⟩ := Nat.exists_eq_add_of_le (show off ≤ a by omega)
    rw [himage k (by omega), h k (by omega)]

/-! ## The requests other than RXB -/

/-- Two states are served alike: with one response alone, one fault, or one response and one run of bytes
written to tx_scratch. -/
inductive ServedAlike (s t : State) : State → State → Prop
  | respond (r : Response) : ServedAlike s t (respond r s) (respond r t)
  | fault (f : FaultInfo) : ServedAlike s t (raiseFault f s) (raiseFault f t)
  | frame (r : Response) (bs : List Byte) :
      ServedAlike s t (Machine.respond r { s with txScratch := s.txScratch.writeBytes 0 bs })
        (Machine.respond r { t with txScratch := t.txScratch.writeBytes 0 bs })

theorem ServedAlike.answered {s t s' t' : State} (h : ServedAlike s t s' t') :
    ∃ r, Answered s r s' ∧ Answered t r t' := by
  cases h <;> exact ⟨_, ⟨rfl, rfl⟩, ⟨rfl, rfl⟩⟩

section
variable {s t : State}

/-- TXP reads the payload, MAGIC and NCK alone (42_tx_checksum.md R180). -/
theorem execTxp_servedAlike (hmagic : s.cfgMagic = t.cfgMagic) (hnck : s.cfgNck = t.cfgNck)
    (hpayload : (operandsOf s).payload = (operandsOf t).payload) :
    ∃ s' t', execTxp s = .next s' ∧ execTxp t = .next t' ∧ ServedAlike s t s' t' := by
  have hframe : frameOf s.cfgMagic s.cfgNck (operandsOf s).payload =
      frameOf t.cfgMagic t.cfgNck (operandsOf t).payload := by rw [hmagic, hnck, hpayload]
  refine ⟨_, _, rfl, rfl, ?_⟩
  rw [hframe, hpayload]
  split
  · exact .respond _
  · exact .frame _ _

/-- An encode reads its operands and the byte order alone (40_codec.md R110). -/
theorem codecEncode_servedAlike (horder : s.cfgOrder = t.cfgOrder) (hops : operandsOf s = operandsOf t)
    (w off : Nat) (v : BitVec w) : ServedAlike s t (codecEncode w off v s) (codecEncode w off v t) := by
  rw [codecEncode, codecEncode, horder, hops]
  split
  · exact .respond _
  · exact .fault _

/-- A decode reads its operands and the byte order alone (40_codec.md R110). -/
theorem codecDecode_servedAlike (horder : s.cfgOrder = t.cfgOrder) (hops : operandsOf s = operandsOf t)
    (w off : Nat) : ServedAlike s t (codecDecode w off s) (codecDecode w off t) := by
  rw [codecDecode, codecDecode, horder, hops]
  split
  · exact .respond _
  · exact .fault _

/-- An operation other than RXB serves states of equal configuration and operands alike. -/
theorem exec_servedAlike {i : Instr} (hi : ∀ c, i ≠ .rxb c) (hcfg : SameCfg s t)
    (hops : operandsOf s = operandsOf t) :
    ∃ s' t', exec i s = .next s' ∧ exec i t = .next t' ∧ ServedAlike s t s' t' := by
  obtain ⟨hmagic, hnck, horder⟩ := hcfg
  cases i with
  | rxb b => exact absurd rfl (hi b)
  | txp => exact execTxp_servedAlike hmagic hnck (congrArg _ hops)
  | encI8 | encI16 | encI32 | encI64 | encF32 =>
    refine ⟨_, _, rfl, rfl, ?_⟩
    rw [hops]
    exact codecEncode_servedAlike horder hops ..
  | decI8 | decI16 | decI32 | decI64 | decF32 =>
    exact ⟨_, _, rfl, rfl, codecDecode_servedAlike horder hops ..⟩

end

/-- Settles O59: the buffer an encode returns holds the image it would place again, and TXP serves states of
equal payload, MAGIC and NCK alike. -/
theorem encodeIsIdempotentAndTxpDeterministic : Obligations.EncodeIsIdempotentAndTxpDeterministic := by
  refine ⟨fun o w buf off v _ hin => ?_, fun s t hmagic hnck hpayload => ?_⟩
  · obtain ⟨hlength, himage, -⟩ := encodeBuf_encoded o w v buf off hin
    exact encodeBuf_of_holdsImage (hlength ▸ hin) himage
  · obtain ⟨s', t', hs, ht, halike⟩ := execTxp_servedAlike hmagic hnck hpayload
    obtain ⟨r, hsr, htr⟩ := halike.answered
    exact ⟨s', t', r, hs, ht, hsr, htr⟩

/-! ## RXB past another request -/

/-- s with the RX context of c. -/
def withRx (c s : State) : State :=
  { s with
    rxState := c.rxState
    rxCount := c.rxCount
    rxLen := c.rxLen
    rxPayload := c.rxPayload
    rxCks := c.rxCks }

theorem withRx_eq_self {c s : State} (h : SameRx c s) : withRx c s = s := by
  obtain ⟨hstate, hcount, hlen, hpay, hcks⟩ := h
  rw [withRx, hstate, hcount, hlen, hpay, hcks]

section
variable (c s : State)

@[simp] theorem withRx_cfgMagic : (withRx c s).cfgMagic = s.cfgMagic := rfl

@[simp] theorem withRx_rxCount : (withRx c s).rxCount = c.rxCount := rfl

@[simp] theorem withRx_responses : (withRx c s).responses = s.responses := rfl

end

/-- A state that holds the RX context of s, with the same MAGIC and NCK, is given the response and the new RX
context that RXB gives s; the rest of that state is left alone (20_memory.md R74). -/
theorem execRxb_withRx {s u : State} {b : Byte} (h : execRxb b s = .next u) :
    ∃ x, ∀ t : State, t.cfgMagic = s.cfgMagic → t.cfgNck = s.cfgNck →
      execRxb b (withRx s t) = .next (respond x (withRx u t)) := by
  obtain ⟨hstate, rfl⟩ | ⟨hstate, rfl⟩ | ⟨hstate, len, hlen, hcount, rfl⟩ | ⟨hstate, hcount, hmore, rfl⟩ |
    ⟨hstate, hcount, hlast, len, p, rcv, hlen, hp, hrcv, rfl⟩ := execRxb_cases h
  · refine ⟨.none, fun t hmagic _ => ?_⟩
    rw [execRxb_sync (s := withRx s t) hstate, rxbInSync, rxbInSync, withRx_cfgMagic, ← hmagic]
    split <;> rfl
  · refine ⟨.none, fun t _ _ => ?_⟩
    rw [execRxb_payloadLen (s := withRx s t) hstate, rxbInPayloadLen, rxbInPayloadLen]
    split <;> rfl
  · refine ⟨.none, fun t _ _ => ?_⟩
    rw [execRxb_payload (s := withRx s t) hstate, rxbInPayload_next b (withRx s t) len hcount hlen,
      withRx_rxCount]
    split <;> rfl
  · refine ⟨.none, fun t _ hnck => ?_⟩
    rw [← hnck] at hcount hmore
    rw [execRxb_checksum (s := withRx s t) hstate, rxbInChecksum_partial b (withRx s t) hcount hmore]
    rfl
  · refine ⟨if cascade p s.cfgNck.toNat = rcv then .valid p else .rejected, fun t _ hnck => ?_⟩
    rw [← hnck] at hcount hlast hrcv ⊢
    rw [execRxb_checksum (s := withRx s t) hstate,
      rxbInChecksum_last b (withRx s t) len p rcv hcount hlast hlen hp hrcv]
    rfl

/-- RXB answers and replaces the RX context, with one response and one new context for all states that agree on
what it reads. -/
theorem execRxb_eq_respond_withRx {s u : State} {b : Byte} (h : execRxb b s = .next u) :
    ∃ x c, u = respond x (withRx c s) ∧
      ∀ t, RxAgree s t → execRxb b t = .next (respond x (withRx c t)) := by
  obtain ⟨x, hx⟩ := execRxb_withRx h
  have hagree : ∀ t, RxAgree s t → execRxb b t = .next (respond x (withRx u t)) := by
    intro t ⟨hrx, hmagic, hnck⟩
    rw [← hx t hmagic.symm hnck.symm, withRx_eq_self hrx]
  have hself := hagree s ⟨⟨rfl, rfl, rfl, rfl, rfl⟩, rfl, rfl⟩
  exact ⟨x, u, Host.Outcome.next.inj (h.symm.trans hself), hagree⟩

theorem ServedAlike.rxAgree {s t s' t' : State} (h : ServedAlike s t s' t') : RxAgree t t' := by
  cases h <;> exact ⟨⟨rfl, rfl, rfl, rfl, rfl⟩, rfl, rfl⟩

/-- Settles O58: RXB gives its response and its new RX context before or after the other request, which is served
alike on both sides of it. -/
theorem unitsAreIndependent : Obligations.UnitsAreIndependent := by
  intro s t b q rest i hdecode hi hrun
  obtain ⟨u, hrxb, hrun⟩ := exists_step_of_run_succ hrun
  obtain ⟨_, hother, ⟨⟩⟩ := exists_step_of_run_succ hrun
  rw [step_asmRxb rfl] at hrxb
  obtain ⟨x, c, hu, hagree⟩ := execRxb_eq_respond_withRx hrxb
  have hport : u.requests = q :: rest := by rw [hu]; rfl
  rw [step_of_decode_ok hport hdecode] at hother
  obtain ⟨_, v, hexec, hexec', halike⟩ :=
    exec_servedAlike (s := u) (t := { s with requests := q :: asmRxb b :: rest }) hi
      (by rw [hu]; exact ⟨rfl, rfl, rfl⟩) (operandsOf_cons u q rest hport)
  cases hother.symm.trans hexec
  obtain ⟨y, ⟨-, hresp⟩, hport', hresp'⟩ := halike.answered
  have hrun' : core.run 2 { s with requests := q :: asmRxb b :: rest } =
      .next (respond x (withRx c v)) := by
    rw [run_succ 1 ((step_of_decode_ok rfl hdecode).trans hexec'),
      run_succ 0 ((step_asmRxb hport').trans (hagree v halike.rxAgree))]
    rfl
  refine ⟨_, x, y, hrun', ?_, ?_, ?_⟩
  · rw [hresp, hu]
    exact List.append_assoc ..
  · rw [respond_responses, withRx_responses, hresp']
    exact List.append_assoc ..
  · subst hu
    cases halike <;> rfl

end Sys2Proof.Safety
end

section
/-! PROOF. The command word: everything the decoder can give and the encoder's answer to it, which words are
illegal, and the layout of a frame (30_encoding.md R80 to R87). -/

namespace Sys2Proof.Safety

open Sys2Proof.Machine

/-! ## The codec group of the opcode map (30_encoding.md R81) -/

/-- The OP of a codec operation from its direction and width selector (30_encoding.md R81). -/
def codecOp (dir : Bool) (wsel : BitVec 3) : Byte := 0b0001#4 ++ BitVec.ofBool dir ++ wsel

@[simp] theorem codecOp_group (dir : Bool) (wsel : BitVec 3) :
    (codecOp dir wsel).extractLsb' 4 4 = 0b0001#4 := by
  revert dir wsel; decide

@[simp] theorem codecOp_direction (dir : Bool) (wsel : BitVec 3) : (codecOp dir wsel)[3] = dir := by
  revert dir wsel; decide

@[simp] theorem codecOp_width (dir : Bool) (wsel : BitVec 3) :
    (codecOp dir wsel).extractLsb' 0 3 = wsel := by
  revert dir wsel; decide

theorem codecOp_toNat (dir : Bool) (wsel : BitVec 3) :
    (codecOp dir wsel).toNat = 16 + 8 * dir.toNat + wsel.toNat := by
  revert dir wsel; decide

/-- No codec OP is RXB's or TXP's. -/
theorem codecOp_ne {op : Byte} (h : op.toNat < 16) (dir : Bool) (wsel : BitVec 3) : codecOp dir wsel ≠ op := by
  rintro rfl
  rw [codecOp_toNat] at h
  omega

/-- An OP of the codec group is made of its direction and width selector. -/
theorem codecOp_fields {op : Byte} (h : op.extractLsb' 4 4 = 0b0001#4) :
    codecOp (op.getLsbD 3) (op.extractLsb' 0 3) = op := by
  revert op; decide

/-- The reserved width selectors are those above 4. -/
theorem codecInstr_eq_none_iff (dir : Bool) (wsel off : Nat) : codecInstr dir wsel off = none ↔ 4 < wsel := by
  cases dir <;> match wsel with
  | 0 | 1 | 2 | 3 | 4 => simp [codecInstr]
  | n + 5 => simp [codecInstr]

/-- A codec operation's word has the OP of its direction and width selector, and the offset as IMM8. -/
theorem encode_codecInstr {dir : Bool} {wsel off : Nat} {i : Instr}
    (hi : codecInstr dir wsel off = some i) :
    encode i = wordOf (codecOp dir (BitVec.ofNat 3 wsel)) (BitVec.ofNat 8 off) := by
  unfold codecInstr at hi
  split at hi <;> cases hi <;> rfl

theorem wellFormed_codecInstr {dir : Bool} {wsel off : Nat} {i : Instr}
    (hi : codecInstr dir wsel off = some i) : WellFormed i ↔ off ≤ 255 := by
  unfold codecInstr at hi
  split at hi <;> cases hi <;> exact Iff.rfl

/-! ## The decoder -/

/-- Everything the decoder can give for a word, with what the word's fields then are (30_encoding.md R83). -/
inductive Decoded (cw : Word) : Except Illegal Instr → Prop
  | rxb (hop : opOf cw = 0x01#8) : Decoded cw (.ok (.rxb (imm8Of cw)))
  | txp (hop : opOf cw = 0x02#8) (himm : imm8Of cw = 0x00#8) : Decoded cw (.ok .txp)
  | codec (dir : Bool) (wsel : BitVec 3) {i : Instr} (hop : opOf cw = codecOp dir wsel)
      (hi : codecInstr dir wsel.toNat (imm8Of cw).toNat = some i) : Decoded cw (.ok i)
  | reservedImm8 (hop : opOf cw = 0x02#8) (himm : imm8Of cw ≠ 0x00#8) :
      Decoded cw (.error (.reservedImm8 (imm8Of cw)))
  | reservedWidth (dir : Bool) (wsel : BitVec 3) (hop : opOf cw = codecOp dir wsel)
      (hwsel : 4 < wsel.toNat) : Decoded cw (.error (.reservedWidth (opOf cw)))
  | reservedOpcode (hrxb : opOf cw ≠ 0x01#8) (htxp : opOf cw ≠ 0x02#8)
      (hgroup : (opOf cw).extractLsb' 4 4 ≠ 0b0001#4) : Decoded cw (.error (.reservedOpcode (opOf cw)))

theorem decode_decoded (cw : Word) : Decoded cw (decode cw) := by
  unfold decode
  split_ifs with hrxb htxp himm hgroup
  · exact .rxb hrxb
  · exact .txp htxp himm
  · exact .reservedImm8 htxp himm
  · have hop := (codecOp_fields hgroup).symm
    split
    · next i hi => exact .codec _ _ hop hi
    · next hnone => exact .reservedWidth _ _ hop ((codecInstr_eq_none_iff ..).1 hnone)
  · exact .reservedOpcode hrxb htxp hgroup

/-- A codec row of the opcode map, with IMM8 at every value (30_encoding.md R82). -/
theorem decode_codec (dir : Bool) (wsel : BitVec 3) {imm : Byte} {i : Instr}
    (hi : codecInstr dir wsel.toNat imm.toNat = some i) : decode (wordOf (codecOp dir wsel) imm) = .ok i := by
  simp [decode, codecOp_ne, hi]

theorem decode_rxb (imm : Byte) : decode (wordOf 0x01 imm) = .ok (.rxb imm) := by
  simp [decode]

theorem decode_txp : decode (wordOf 0x02 0x00) = .ok .txp := by
  decide

/-- Settles O2: RXB's and TXP's rows, and the ten codec rows by direction and width selector. -/
theorem opcodeMapRows : Obligations.OpcodeMapRows :=
  ⟨decode_txp, fun imm => ⟨decode_rxb imm,
    decode_codec false 0 rfl, decode_codec false 1 rfl, decode_codec false 2 rfl, decode_codec false 3 rfl,
    decode_codec false 4 rfl, decode_codec true 0 rfl, decode_codec true 1 rfl, decode_codec true 2 rfl,
    decode_codec true 3 rfl, decode_codec true 4 rfl⟩⟩

/-- Settles O1: by evaluating the decoder on each word. -/
theorem sampleWordsDecode : Obligations.SampleWordsDecode := by
  unfold Obligations.SampleWordsDecode
  decide

/-! ## Decoding and encoding -/

/-- An offset of 0..255 comes back from IMM8 unchanged (30_encoding.md R84). -/
theorem decode_encode_codecInstr (dir : Bool) (wsel : BitVec 3) {off : Nat} {i : Instr}
    (hi : codecInstr dir wsel.toNat off = some i) (hoff : off ≤ 255) : decode (encode i) = .ok i := by
  have himm : (BitVec.ofNat 8 off).toNat = off := Nat.mod_eq_of_lt (by omega)
  rw [encode_codecInstr hi, BitVec.ofNat_toNat, BitVec.setWidth_eq]
  exact decode_codec dir wsel (by rwa [himm])

/-- Settles O4: by the instruction's row of the opcode map. -/
theorem decodeOfEncode : Obligations.DecodeOfEncode := by
  intro i hwf
  cases i with
  | rxb b => exact decode_rxb b
  | txp => exact decode_txp
  | encI8 => exact decode_encode_codecInstr false 0 rfl hwf
  | encI16 => exact decode_encode_codecInstr false 1 rfl hwf
  | encI32 => exact decode_encode_codecInstr false 2 rfl hwf
  | encI64 => exact decode_encode_codecInstr false 3 rfl hwf
  | encF32 => exact decode_encode_codecInstr false 4 rfl hwf
  | decI8 => exact decode_encode_codecInstr true 0 rfl hwf
  | decI16 => exact decode_encode_codecInstr true 1 rfl hwf
  | decI32 => exact decode_encode_codecInstr true 2 rfl hwf
  | decI64 => exact decode_encode_codecInstr true 3 rfl hwf
  | decF32 => exact decode_encode_codecInstr true 4 rfl hwf

theorem Decoded.wellFormed_encode {cw : Word} {i : Instr} (h : Decoded cw (.ok i)) :
    WellFormed i ∧ encode i = cw := by
  cases h with
  | rxb hop => exact ⟨trivial, by rw [encode, ← hop, wordOf_fields]⟩
  | txp hop himm => exact ⟨trivial, by rw [encode, ← hop, ← himm, wordOf_fields]⟩
  | codec dir wsel hop hi =>
    refine ⟨(wellFormed_codecInstr hi).2 (Nat.le_of_lt_succ (imm8Of cw).isLt), ?_⟩
    rw [encode_codecInstr hi, BitVec.ofNat_toNat, BitVec.ofNat_toNat, BitVec.setWidth_eq, BitVec.setWidth_eq,
      ← hop, wordOf_fields]

/-- Settles O5: a word is made of the two fields it was decoded by. -/
theorem encodeOfDecode : Obligations.EncodeOfDecode :=
  fun cw _ h => (h ▸ decode_decoded cw).wellFormed_encode

/-! ## The illegal words -/

/-- The OPs of the codec group are 0x10..0x1F. -/
theorem extractLsb'_four_four_eq_one_iff (op : Byte) :
    op.extractLsb' 4 4 = 0b0001#4 ↔ 16 ≤ op.toNat ∧ op.toNat < 32 := by
  rw [← BitVec.toNat_inj, BitVec.extractLsb'_toNat, Nat.shiftRight_eq_div_pow]
  have hlt := op.isLt
  norm_num
  omega

/-- A word that decodes lies outside every range of R85. -/
theorem Decoded.not_listed {cw : Word} {i : Instr} (h : Decoded cw (.ok i)) : ¬ ListedIllegal cw := by
  unfold ListedIllegal
  cases h with
  | rxb hop => simp [hop]
  | txp hop himm => simp [hop, himm]
  | codec dir wsel hop hi =>
    have hwsel : ¬ 4 < wsel.toNat := fun hlt => by
      simp [(codecInstr_eq_none_iff dir _ _).2 hlt] at hi
    have hdir := dir.toNat_le
    rw [hop, codecOp_toNat]
    omega

/-- Each of the decoder's three refusals is a part of R85's list. -/
theorem Decoded.listed {cw : Word} {e : Illegal} (h : Decoded cw (.error e)) : ListedIllegal cw := by
  unfold ListedIllegal
  cases h with
  | reservedImm8 hop himm => simp [hop, himm]
  | reservedWidth dir wsel hop hwsel =>
    have hdir := dir.toNat_le
    have hlt := wsel.isLt
    rw [hop, codecOp_toNat]
    omega
  | reservedOpcode hrxb htxp hgroup =>
    rw [ne_eq, extractLsb'_four_four_eq_one_iff] at hgroup
    have hne_one : (opOf cw).toNat ≠ 1 := BitVec.toNat_ne.1 hrxb
    have hne_two : (opOf cw).toNat ≠ 2 := BitVec.toNat_ne.1 htxp
    omega

/-- The decoder refuses exactly the words 30_encoding.md R85 lists. -/
theorem decode_error_iff_listed (cw : Word) : (∃ e, decode cw = .error e) ↔ ListedIllegal cw := by
  have h := decode_decoded cw
  cases hd : decode cw with
  | error e => exact ⟨fun _ => (hd ▸ h).listed, fun _ => ⟨e, rfl⟩⟩
  | ok i => exact ⟨nofun, fun hl => absurd hl (hd ▸ h).not_listed⟩

/-- A request is given one response. -/
theorem Answered.unique {s t : State} {x y : Response} (hx : Answered s x t) (hy : Answered s y t) :
    x = y := by
  obtain ⟨-, hx⟩ := hx
  obtain ⟨-, hy⟩ := hy
  simpa [hx] using hy

theorem codecEncode_answered (w off : Nat) (v : BitVec w) (s : State) :
    ∃ x, Answered s x (codecEncode w off v s) ∧ x ≠ .faultIllegal := by
  obtain ⟨-, h⟩ | ⟨-, h⟩ := codecEncode_cases w off v s
  · exact ⟨.okBuf _, by rw [h]; exact ⟨rfl, rfl⟩, nofun⟩
  · exact ⟨.faultRange, by rw [h]; exact ⟨rfl, rfl⟩, nofun⟩

theorem codecDecode_answered (w off : Nat) (s : State) :
    ∃ x, Answered s x (codecDecode w off s) ∧ x ≠ .faultIllegal := by
  obtain ⟨-, h⟩ | ⟨-, h⟩ := codecDecode_cases w off s
  · exact ⟨.okValue w _, by rw [h]; exact ⟨rfl, rfl⟩, nofun⟩
  · exact ⟨.faultRange, by rw [h]; exact ⟨rfl, rfl⟩, nofun⟩

theorem execTxp_answered {s t : State} (h : execTxp s = .next t) :
    ∃ x, Answered s x t ∧ x ≠ .faultIllegal := by
  obtain ⟨-, hlong⟩ | ⟨-, hframe⟩ := execTxp_cases s
  · cases h.symm.trans hlong
    exact ⟨.failLen, ⟨rfl, rfl⟩, nofun⟩
  · cases h.symm.trans hframe
    exact ⟨.okFrame _, ⟨rfl, rfl⟩, nofun⟩

/-- No operation of the map answers FAULT_ILLEGAL. -/
theorem exec_answered {i : Instr} {s t : State} (h : exec i s = .next t) :
    ∃ x, Answered s x t ∧ x ≠ .faultIllegal := by
  cases i with
  | rxb b =>
    obtain ⟨x, hport, -, hillegal⟩ := execRxb_answered h
    exact ⟨x, hport, hillegal⟩
  | txp => exact execTxp_answered h
  | encI8 | encI16 | encI32 | encI64 | encF32 => cases h; exact codecEncode_answered ..
  | decI8 | decI16 | decI32 | decI64 | decF32 => cases h; exact codecDecode_answered ..

/-- Settles O3: a listed word ends with its fault before any operation is run, and the operation of any other
word answers otherwise. -/
theorem illegalWordsAreTheListed : Obligations.IllegalWordsAreTheListed := by
  refine ⟨decode_error_iff_listed, fun s r rest hr => ⟨fun hlisted => ?_, fun hlegal t hstep hillegal => ?_⟩⟩
  · obtain ⟨e, hd⟩ := (decode_error_iff_listed r.cw).2 hlisted
    exact ⟨_, step_of_decode_error hr hd, rfl, rfl⟩
  · cases hd : decode r.cw with
    | error e => exact hlegal ((decode_error_iff_listed r.cw).1 ⟨e, hd⟩)
    | ok i =>
      rw [step_of_decode_ok hr hd] at hstep
      obtain ⟨x, hx, hne⟩ := exec_answered hstep
      exact hne (hx.unique hillegal)

/-! ## The layout of a frame (30_encoding.md R87) -/

/-- After MAGIC and the length byte a frame is the payload and its cascade. -/
theorem frameOf_getElem?_two_add (magic : Byte) (nck : Nck) (p : List Byte) (i : Nat) :
    (frameOf magic nck p)[2 + i]? = (p ++ cascade p nck.toNat)[i]? := by
  rw [frameOf, List.append_assoc, Nat.add_comm]
  rfl

/-- Settles O21: a length of at most 127 is the value of its byte, and the fields follow in order. -/
theorem frameLayout : Obligations.FrameLayout := by
  intro magic nck p hp
  refine ⟨frameOf_length magic nck p, rfl, ⟨_, rfl, Nat.mod_eq_of_lt (by omega)⟩,
    fun i hi => ?_, fun i _ => ?_⟩
  · rw [frameOf_getElem?_two_add, List.getElem?_append_left hi]
  · rw [Nat.add_assoc, frameOf_getElem?_two_add, List.getElem?_append_right (Nat.le_add_right ..),
      Nat.add_sub_cancel_left]

end Sys2Proof.Safety
end

section
/-! PROOF. The codec: each operation's words, its answer in range and its fault out of range, the round-trip law,
and the signed reading of a pattern (40_codec.md R110 to R125). -/

namespace Sys2Proof.Safety

open Sys2Proof.Machine

/-! ## What a response and a codec operation leave unchanged (40_codec.md R110) -/

theorem respond_sameBlock (r : Response) (s : State) : SameBlock s (respond r s) :=
  ⟨⟨rfl, rfl, rfl⟩, ⟨rfl, rfl, rfl, rfl, rfl⟩, rfl⟩

theorem raiseFault_sameBlock (f : FaultInfo) (s : State) : SameBlock s (raiseFault f s) := by
  obtain ⟨-, hblock, -⟩ := raiseFault_faultTaken f s
  exact hblock

theorem codecEncode_sameBlock (w off : Nat) (v : BitVec w) (s : State) :
    SameBlock s (codecEncode w off v s) := by
  obtain ⟨-, h⟩ | ⟨-, h⟩ := codecEncode_cases w off v s
  · rw [h]; exact respond_sameBlock _ s
  · rw [h]; exact raiseFault_sameBlock _ s

theorem codecDecode_sameBlock (w off : Nat) (s : State) : SameBlock s (codecDecode w off s) := by
  obtain ⟨-, h⟩ | ⟨-, h⟩ := codecDecode_cases w off s
  · rw [h]; exact respond_sameBlock _ s
  · rw [h]; exact raiseFault_sameBlock _ s

/-- Every codec operation is an encode of one of the request's values, or a decode. -/
theorem IsCodec.exec_eq {i : Instr} (hi : IsCodec i) :
    (∃ (w off : Nat) (value : Operands → BitVec w),
      ∀ s, exec i s = .next (codecEncode w off (value (operandsOf s)) s)) ∨
    ∃ w off, ∀ s, exec i s = .next (codecDecode w off s) := by
  cases i with
  | rxb | txp => exact hi.elim
  | encI8 off => exact .inl ⟨8, off, Operands.valueI8, fun _ => rfl⟩
  | encI16 off => exact .inl ⟨16, off, Operands.valueI16, fun _ => rfl⟩
  | encI32 off => exact .inl ⟨32, off, Operands.valueI32, fun _ => rfl⟩
  | encI64 off => exact .inl ⟨64, off, Operands.valueI64, fun _ => rfl⟩
  | encF32 off => exact .inl ⟨32, off, Operands.valueF32, fun _ => rfl⟩
  | decI8 off => exact .inr ⟨8, off, fun _ => rfl⟩
  | decI16 off => exact .inr ⟨16, off, fun _ => rfl⟩
  | decI32 off | decF32 off => exact .inr ⟨32, off, fun _ => rfl⟩
  | decI64 off => exact .inr ⟨64, off, fun _ => rfl⟩

/-- A codec operation serves states of equal byte order and operands alike. -/
theorem IsCodec.exec_servedAlike {i : Instr} (hi : IsCodec i) {s t : State} (horder : s.cfgOrder = t.cfgOrder)
    (hops : operandsOf s = operandsOf t) :
    ∃ s' t', exec i s = .next s' ∧ exec i t = .next t' ∧ ServedAlike s t s' t' := by
  obtain ⟨w, off, value, h⟩ | ⟨w, off, h⟩ := hi.exec_eq
  · exact ⟨_, _, h s, hops ▸ h t, codecEncode_servedAlike horder hops w off _⟩
  · exact ⟨_, _, h s, h t, codecDecode_servedAlike horder hops w off⟩

/-- Settles O36: every codec operation is an encode or a decode, and each of them only answers or takes its
fault, by the byte order and its operands. -/
theorem codecIsStateless : Obligations.CodecIsStateless := by
  refine ⟨fun i s hi => ?_, fun i s t hi horder hops => ?_⟩
  · obtain ⟨w, off, value, h⟩ | ⟨w, off, h⟩ := hi.exec_eq
    · exact ⟨_, h s, codecEncode_sameBlock ..⟩
    · exact ⟨_, h s, codecDecode_sameBlock ..⟩
  · obtain ⟨s', t', hs, ht, halike⟩ := hi.exec_servedAlike horder hops
    obtain ⟨r, hsr, htr⟩ := halike.answered
    exact ⟨s', t', r, hs, ht, hsr, htr⟩

/-! ## The round-trip law (40_codec.md R125) -/

/-- A decode in range gives the pattern whose image stands there (40_codec.md R113). -/
theorem holdsImage_decodeBuf (o : ByteOrder) {w off : Nat} {buf : List Byte} (hw : 8 ∣ w)
    (hin : off + w / 8 ≤ buf.length) : HoldsImage o w (decodeBuf o w buf off) buf off :=
  (holdsImage_iff ..).2 fun _ hk => (imageByte_decodeBuf o hw hin hk).symm

/-- A pattern whose image stands in the buffer is what a decode there gives. -/
theorem decodeBuf_of_holdsImage {o : ByteOrder} {w off : Nat} {v : BitVec w} {buf : List Byte} (hw : 8 ∣ w)
    (hin : off + w / 8 ≤ buf.length) (h : HoldsImage o w v buf off) : decodeBuf o w buf off = v :=
  eq_of_imageByte o hw fun k hk =>
    Option.some.inj ((imageByte_decodeBuf o hw hin hk).trans ((holdsImage_iff ..).1 h k hk))

/-- Settles O37: an encode places the value's image, which is what a decode there reads, and a decode gives the
value whose image stands there already. -/
theorem codecRoundTrip : Obligations.CodecRoundTrip := by
  intro o w buf off hwidth hin
  refine ⟨fun v => ?_, encodeBuf_of_holdsImage hin (holdsImage_decodeBuf o hwidth.dvd hin)⟩
  obtain ⟨hlength, himage, -⟩ := encodeBuf_encoded o w v buf off hin
  exact decodeBuf_of_holdsImage hwidth.dvd (hlength ▸ hin) himage

/-! ## The behaviour of an encode and of a decode -/

/-- A word with a codec OP decodes to that OP's operation at the offset IMM8 (30_encoding.md R82, R84). -/
theorem decode_of_codecOp {dir : Bool} {wsel : BitVec 3} {i : Nat → Instr}
    (hi : ∀ off, codecInstr dir wsel.toNat off = some (i off)) {cw : Word} (hop : opOf cw = codecOp dir wsel) :
    decode cw = .ok (i (imm8Of cw).toNat) := by
  rw [← wordOf_fields cw, hop, imm8Of_wordOf]
  exact decode_codec dir wsel (hi _)

theorem codecEncode_of_inRange {w off : Nat} (v : BitVec w) {s : State}
    (hin : off + w / 8 ≤ (operandsOf s).buf.length) :
    codecEncode w off v s = respond (.okBuf (encodeBuf s.cfgOrder w (operandsOf s).buf off v)) s := by
  obtain ⟨-, h⟩ | ⟨hout, -⟩ := codecEncode_cases w off v s
  · exact h
  · exact absurd hin hout.not_ge

theorem codecDecode_of_inRange {w off : Nat} {s : State} (hin : off + w / 8 ≤ (operandsOf s).buf.length) :
    codecDecode w off s = respond (.okValue w (decodeBuf s.cfgOrder w (operandsOf s).buf off)) s := by
  obtain ⟨-, h⟩ | ⟨hout, -⟩ := codecDecode_cases w off s
  · exact h
  · exact absurd hin hout.not_ge

theorem codecEncode_faultTaken {w off : Nat} (v : BitVec w) {s : State}
    (hout : (operandsOf s).buf.length < off + w / 8) :
    FaultTaken s (.range off (w / 8) (operandsOf s).buf.length) .faultRange (codecEncode w off v s) := by
  obtain ⟨hin, -⟩ | ⟨-, h⟩ := codecEncode_cases w off v s
  · exact absurd hin hout.not_ge
  · rw [h]; exact raiseFault_faultTaken _ s

theorem codecDecode_faultTaken {w off : Nat} {s : State} (hout : (operandsOf s).buf.length < off + w / 8) :
    FaultTaken s (.range off (w / 8) (operandsOf s).buf.length) .faultRange (codecDecode w off s) := by
  obtain ⟨hin, -⟩ | ⟨-, h⟩ := codecDecode_cases w off s
  · exact absurd hin hout.not_ge
  · rw [h]; exact raiseFault_faultTaken _ s

/-- An operation of the ENC rows that runs the shared encode behaves as one (40_codec.md R110 to R112). -/
theorem encodeBehaviour_of_exec {i : Nat → Instr} {w : Nat} {value : Operands → BitVec w} (wsel : BitVec 3)
    (hi : ∀ off, codecInstr false wsel.toNat off = some (i off))
    (hexec : ∀ off s, exec (i off) s = .next (codecEncode w off (value (operandsOf s)) s)) :
    EncodeBehaviour i (codecOp false wsel) w value := by
  refine ⟨fun cw hop => decode_of_codecOp hi hop, fun s off hin => ?_, fun s off hout => ?_⟩
  · refine ⟨_, encodeBuf s.cfgOrder w (operandsOf s).buf off (value (operandsOf s)), hexec off s, ?_⟩
    rw [codecEncode_of_inRange _ hin]
    exact ⟨⟨rfl, rfl⟩, encodeBuf_encoded _ _ _ _ _ hin, respond_sameBlock _ s, ⟨rfl, rfl⟩⟩
  · exact ⟨_, hexec off s, codecEncode_faultTaken _ hout⟩

/-- An operation of the DEC rows that runs the shared decode behaves as one (40_codec.md R110, R111, R113). -/
theorem decodeBehaviour_of_exec {i : Nat → Instr} {w : Nat} (wsel : BitVec 3)
    (hi : ∀ off, codecInstr true wsel.toNat off = some (i off)) (hw : 8 ∣ w)
    (hexec : ∀ off s, exec (i off) s = .next (codecDecode w off s)) :
    DecodeBehaviour i (codecOp true wsel) w := by
  refine ⟨fun cw hop => decode_of_codecOp hi hop, fun s off hin => ?_, fun s off hout => ?_⟩
  · refine ⟨_, decodeBuf s.cfgOrder w (operandsOf s).buf off, hexec off s, ?_⟩
    rw [codecDecode_of_inRange hin]
    exact ⟨⟨rfl, rfl⟩, holdsImage_decodeBuf _ hw hin, respond_sameBlock _ s, ⟨rfl, rfl⟩⟩
  · exact ⟨_, hexec off s, codecDecode_faultTaken hout⟩

/-! ## One byte: the order has no effect (40_codec.md R115, R120) -/

theorem imageByte_eight (o : ByteOrder) (v : BitVec 8) : imageByte o 8 v 0 = v := by
  cases o <;> exact BitVec.extractLsb'_eq_self

/-- Encoding 8 bits replaces the byte at the offset. -/
theorem encodeBuf_eight (o : ByteOrder) {buf : List Byte} {off : Nat} (v : BitVec 8)
    (hin : off + 1 ≤ buf.length) : encodeBuf o 8 buf off v = buf.set off v := by
  have himage : bytesOf o 8 v = [v] := congrArg ([·]) (imageByte_eight o v)
  rw [encodeBuf, himage, memWrite, List.set_eq_take_append_cons_drop,
    if_pos (Nat.lt_of_succ_le hin), List.append_assoc]
  rfl

/-- Decoding 8 bits reads the byte at the offset. -/
theorem decodeBuf_eight (o : ByteOrder) {buf : List Byte} {off : Nat} {b : Byte} (hb : buf[off]? = some b) :
    decodeBuf o 8 buf off = b := by
  obtain ⟨hin, -⟩ := List.getElem?_eq_some_iff.1 hb
  have hread := imageByte_decodeBuf o (w := 8) (k := 0) (by decide) hin (by decide)
  rw [imageByte_eight, Nat.add_zero, hb] at hread
  exact Option.some.inj hread

/-! ## The ten operations -/

/-- Settles O26: the encode at width selector 0, whose image is one byte. -/
theorem encI8Behaviour : Obligations.EncI8Behaviour := by
  refine ⟨encodeBehaviour_of_exec 0 (fun _ => rfl) (fun _ _ => rfl), fun s off hin => ⟨_, rfl, ?_⟩⟩
  rw [codecEncode_of_inRange _ hin, encodeBuf_eight _ _ hin]
  exact ⟨rfl, rfl⟩

/-- Settles O27: the encode at width selector 1. -/
theorem encI16Behaviour : Obligations.EncI16Behaviour :=
  encodeBehaviour_of_exec 1 (fun _ => rfl) (fun _ _ => rfl)

/-- Settles O28: the encode at width selector 2. -/
theorem encI32Behaviour : Obligations.EncI32Behaviour :=
  encodeBehaviour_of_exec 2 (fun _ => rfl) (fun _ _ => rfl)

/-- Settles O29: the encode at width selector 3. -/
theorem encI64Behaviour : Obligations.EncI64Behaviour :=
  encodeBehaviour_of_exec 3 (fun _ => rfl) (fun _ _ => rfl)

/-- Settles O30: the encode at width selector 4, which is that of ENC.I32 on the F32 operand. -/
theorem encF32Behaviour : Obligations.EncF32Behaviour :=
  ⟨encodeBehaviour_of_exec 4 (fun _ => rfl) (fun _ _ => rfl),
    fun s off hvalue => congrArg (fun v => Host.Outcome.next (codecEncode 32 off v s)) hvalue⟩

/-- Settles O31: the decode at width selector 0, whose image is one byte. -/
theorem decI8Behaviour : Obligations.DecI8Behaviour := by
  refine ⟨decodeBehaviour_of_exec 0 (fun _ => rfl) (by decide) (fun _ _ => rfl),
    fun s off b hb => ⟨_, rfl, ?_⟩⟩
  obtain ⟨hin, -⟩ := List.getElem?_eq_some_iff.1 hb
  rw [codecDecode_of_inRange hin, decodeBuf_eight _ hb]
  exact ⟨rfl, rfl⟩

/-- Settles O32: the decode at width selector 1. -/
theorem decI16Behaviour : Obligations.DecI16Behaviour :=
  decodeBehaviour_of_exec 1 (fun _ => rfl) (by decide) (fun _ _ => rfl)

/-- Settles O33: the decode at width selector 2. -/
theorem decI32Behaviour : Obligations.DecI32Behaviour :=
  decodeBehaviour_of_exec 2 (fun _ => rfl) (by decide) (fun _ _ => rfl)

/-- Settles O34: the decode at width selector 3. -/
theorem decI64Behaviour : Obligations.DecI64Behaviour :=
  decodeBehaviour_of_exec 3 (fun _ => rfl) (by decide) (fun _ _ => rfl)

/-- Settles O35: the decode at width selector 4, which is that of DEC.I32. -/
theorem decF32Behaviour : Obligations.DecF32Behaviour :=
  ⟨decodeBehaviour_of_exec 4 (fun _ => rfl) (by decide) (fun _ _ => rfl), fun _ _ => rfl⟩

/-! ## The signed reading of a pattern (00_scope.md R11) -/

/-- sint_w is two's complement, the reading Lean's bit vectors have. -/
theorem sintOf_eq_toInt (w : Nat) (v : BitVec w) : sintOf w v = v.toInt := by
  rw [sintOf, BitVec.toInt_eq_msb_cond, BitVec.msb_eq_getLsbD_last]
  split <;> simp

/-- Settles O40: an integer in the signed range is the two's complement reading of its pattern. -/
theorem signedReadingOfPattern : Obligations.SignedReadingOfPattern := by
  refine ⟨fun w x hw hlo hhi => ?_, by decide⟩
  rw [sintOf_eq_toInt]
  exact BitVec.toInt_ofInt_eq_self hw hlo hhi

end Sys2Proof.Safety
end

section
/-! PROOF. The RX framer: what RXB does in each inbound state, and what it leaves unchanged (41_rx_framer.md R140
to R146, R152). -/

namespace Sys2Proof.Safety

open Sys2Proof.Machine

/-! ## The bytes a space holds -/

/-- The space holds these bytes from its byte 0 on. -/
def Holds (m : Memory) (bs : List Byte) : Prop := ∀ i, i < bs.length → m.read i = bs[i]?

theorem holds_nil (m : Memory) : Holds m [] := nofun

theorem Holds.write {m : Memory} {bs : List Byte} (h : Holds m bs) (b : Byte) :
    Holds (m.write bs.length b) (bs ++ [b]) := by
  intro i hi
  rw [List.length_append, List.length_singleton] at hi
  obtain rfl | hne := eq_or_ne i bs.length
  · rw [Memory.read_write_same, List.getElem?_concat_length]
  · have hlt : i < bs.length := by omega
    rw [Memory.read_write_other _ _ _ _ hne, h i hlt, List.getElem?_append_left hlt]

theorem readBytes_of_read {m : Memory} {a : Nat} {bs : List Byte}
    (h : ∀ i, i < bs.length → m.read (a + i) = bs[i]?) : m.readBytes a bs.length = some bs := by
  induction bs generalizing a with
  | nil => rfl
  | cons b bs ih =>
    have hhead : m.read a = some b := h 0 (Nat.zero_lt_succ _)
    have htail : m.readBytes (a + 1) bs.length = some bs := ih fun i hi => by
      rw [Nat.add_assoc, Nat.add_comm 1]
      exact h (i + 1) (Nat.succ_lt_succ hi)
    simp only [List.length_cons, Memory.readBytes, hhead, htail]

theorem Holds.readBytes {m : Memory} {bs : List Byte} (h : Holds m bs) :
    m.readBytes 0 bs.length = some bs :=
  readBytes_of_read fun i hi => by rw [Nat.zero_add]; exact h i hi

theorem length_of_readBytes {m : Memory} {a n : Nat} {bs : List Byte} (h : m.readBytes a n = some bs) :
    bs.length = n := by
  induction n generalizing a bs with
  | zero => cases h; rfl
  | succ n ih =>
    unfold Memory.readBytes at h
    split at h
    · rename_i htail
      cases h
      rw [List.length_cons, ih htail]
    · cases h

/-! ## The branches of the four rules -/

/-- Below its bound the 7-bit count reaches the bound when the natural numbers do (10_state.md R25). -/
theorem count_succ_eq_iff {c n : BitVec 7} (hlt : c.toNat < n.toNat) : c + 1 = n ↔ c.toNat + 1 = n.toNat := by
  rw [← BitVec.toNat_inj, count_succ_of_lt hlt]

section
variable {s : State} {b : Byte}

theorem execRxb_sync_magic (hstate : s.rxState = .sync) (h : b = s.cfgMagic) :
    execRxb b s = .next (respond .none { s with rxCount := 0, rxState := .payloadLen }) := by
  rw [execRxb_sync hstate, rxbInSync, if_pos h]

theorem execRxb_sync_noise (hstate : s.rxState = .sync) (h : b ≠ s.cfgMagic) :
    execRxb b s = .next (respond .none s) := by
  rw [execRxb_sync hstate, rxbInSync, if_neg h]

/-- PAYLOAD entered with the length of the byte and a fresh buffer (41_rx_framer.md R142). -/
def startPayload (b : Byte) (s : State) : State :=
  { s with rxLen := some (lengthField b), rxPayload := [], rxCount := 0, rxState := .payload }

theorem execRxb_payloadLen_accepted (hstate : s.rxState = .payloadLen) (h : 1 ≤ b.toNat ∧ b.toNat ≤ 127) :
    execRxb b s = .next (respond .none (startPayload b s)) := by
  rw [execRxb_payloadLen hstate, rxbInPayloadLen, if_pos ((lengthAccepted_iff b).2 h)]
  rfl

theorem execRxb_payloadLen_discarded (hstate : s.rxState = .payloadLen)
    (h : ¬ (1 ≤ b.toNat ∧ b.toNat ≤ 127)) :
    execRxb b s = .next (respond .none (enterSync s)) := by
  rw [execRxb_payloadLen hstate, rxbInPayloadLen, if_neg (mt (lengthAccepted_iff b).1 h)]

/-- The byte stored at rx_count in rx_payload, and counted (41_rx_framer.md R143). -/
def storePayload (b : Byte) (s : State) : State :=
  { s with rxPayload := s.rxPayload.write s.rxCount.toNat b, rxCount := s.rxCount + 1 }

theorem execRxb_payload_more {len : BitVec 7} (hstate : s.rxState = .payload) (hlen : s.rxLen = some len)
    (h : s.rxCount.toNat + 1 < len.toNat) :
    execRxb b s = .next (respond .none (storePayload b s)) := by
  have hmax := len.isLt
  rw [execRxb_payload hstate, rxbInPayload_next b s len (by omega) hlen, if_neg, storePayload]
  rw [count_succ_eq_iff (by omega)]
  exact h.ne

/-- CHECKSUM entered with the payload as stored (41_rx_framer.md R143). -/
def startTrailer (m : Memory) (s : State) : State :=
  { s with rxPayload := m, rxCount := 0, rxState := .checksum }

theorem execRxb_payload_last {len : BitVec 7} (hstate : s.rxState = .payload) (hlen : s.rxLen = some len)
    (h : s.rxCount.toNat + 1 = len.toNat) :
    execRxb b s = .next (respond .none (startTrailer (s.rxPayload.write s.rxCount.toNat b) s)) := by
  have hmax := len.isLt
  rw [execRxb_payload hstate, rxbInPayload_next b s len (by omega) hlen, if_pos, startTrailer]
  exact (count_succ_eq_iff (by omega)).2 h

/-- The byte stored at rx_count in rx_cks, and counted (41_rx_framer.md R144). -/
def storeCks (b : Byte) (s : State) : State :=
  { s with rxCks := s.rxCks.write s.rxCount.toNat b, rxCount := s.rxCount + 1 }

theorem execRxb_checksum_more (hstate : s.rxState = .checksum) (h : s.rxCount.toNat + 1 < s.cfgNck.toNat) :
    execRxb b s = .next (respond .none (storeCks b s)) := by
  have hlt : s.rxCount.toNat < s.cfgNck.toNat := by omega
  rw [execRxb_checksum hstate, rxbInChecksum_partial b s hlt, storeCks]
  rw [Ne, count_succ_eq_iff hlt]
  exact h.ne

/-- The result of a frame with this payload and trailer (41_rx_framer.md R144, R146). -/
def verdict (n : Nat) (p trailer : List Byte) : Response :=
  if cascade p n = trailer then .valid p else .rejected

theorem execRxb_checksum_last {len : BitVec 7} {p rcv : List Byte} (hstate : s.rxState = .checksum)
    (hlen : s.rxLen = some len) (hp : p.length = len.toNat) (hpay : Holds s.rxPayload p)
    (hr : rcv.length = s.rxCount.toNat) (hrcv : Holds s.rxCks rcv)
    (h : s.rxCount.toNat + 1 = s.cfgNck.toNat) :
    execRxb b s = .next (respond (verdict s.cfgNck.toNat p (rcv ++ [b])) (enterSync s)) := by
  have hlt : s.rxCount.toNat < s.cfgNck.toNat := by omega
  have hcks := (hrcv.write b).readBytes
  rw [List.length_append, List.length_singleton, hr, h] at hcks
  rw [execRxb_checksum hstate, rxbInChecksum_last b s len p (rcv ++ [b]) hlt
    ((count_succ_eq_iff hlt).2 h) hlen (hp ▸ hpay.readBytes) hcks]
  rfl

end

/-! ## RXB in each inbound state -/

/-- Settles O12: the two branches of R141. -/
theorem rxbInSyncSeeksMagic : Obligations.RxbInSyncSeeksMagic := by
  intro s b hstate
  obtain hmagic | hnoise := eq_or_ne b s.cfgMagic
  · have hexec := execRxb_sync_magic hstate hmagic
    exact ⟨_, hexec, ⟨rfl, rfl⟩, execRxb_sameOutsideRx hexec, fun _ => ⟨rfl, rfl, rfl, rfl, rfl⟩,
      fun hne => absurd hmagic hne⟩
  · have hexec := execRxb_sync_noise hstate hnoise
    exact ⟨_, hexec, ⟨rfl, rfl⟩, execRxb_sameOutsideRx hexec, fun heq => absurd heq hnoise,
      fun _ => ⟨rfl, rfl, rfl, rfl, rfl⟩⟩

/-- Settles O13: the two branches of R142; a length of at most 127 is the value of its byte's 7 low bits. -/
theorem rxbInPayloadLenReadsLength : Obligations.RxbInPayloadLenReadsLength := by
  intro s b hstate
  by_cases hacc : 1 ≤ b.toNat ∧ b.toNat ≤ 0x7F
  · have ⟨_, hmax⟩ := hacc
    have hexec := execRxb_payloadLen_accepted hstate hacc
    exact ⟨_, hexec, ⟨rfl, rfl⟩, execRxb_sameOutsideRx hexec,
      fun _ => ⟨rfl, rfl, fun _ => rfl, rfl, _, rfl, lengthField_toNat b hmax⟩,
      fun hno => absurd hacc hno⟩
  · have hexec := execRxb_payloadLen_discarded hstate hacc
    exact ⟨_, hexec, ⟨rfl, rfl⟩, execRxb_sameOutsideRx hexec, fun hyes => absurd hyes hacc,
      fun _ => ⟨rfl, rfl, rfl, rfl, rfl⟩⟩

/-- Settles O14: the byte stored is the last one of the payload or not. -/
theorem rxbInPayloadStoresByte : Obligations.RxbInPayloadStoresByte := by
  intro s b len hstate hlen hlt
  have hother := fun a ha => Memory.read_write_other s.rxPayload s.rxCount.toNat a b ha
  by_cases hlast : s.rxCount.toNat + 1 = len.toNat
  · have hexec := execRxb_payload_last (b := b) hstate hlen hlast
    exact ⟨_, hexec, ⟨rfl, rfl⟩, execRxb_sameOutsideRx hexec, Memory.read_write_same .., hother, hlen, rfl,
      fun _ => ⟨rfl, rfl⟩, fun hne => absurd hlast hne⟩
  · have hexec := execRxb_payload_more (b := b) hstate hlen (by omega)
    exact ⟨_, hexec, ⟨rfl, rfl⟩, execRxb_sameOutsideRx hexec, Memory.read_write_same .., hother, hlen, rfl,
      fun heq => absurd heq hlast, fun _ => ⟨hstate, count_succ_of_lt hlt⟩⟩

/-- Settles O15: before the last trailer byte one byte is stored; at the last one the whole payload and trailer
are read and compared. -/
theorem rxbInChecksumStoresAndValidates : Obligations.RxbInChecksumStoresAndValidates := by
  refine ⟨fun s b hstate hmore => ?_, fun s b len p rcv hstate hlen hlast hp hpay hr hrcv => ?_⟩
  · have hexec := execRxb_checksum_more (b := b) hstate hmore
    have hlt : s.rxCount.toNat < s.cfgNck.toNat := by omega
    exact ⟨_, hexec, ⟨rfl, rfl⟩, execRxb_sameOutsideRx hexec, Memory.read_write_same ..,
      fun a ha => Memory.read_write_other s.rxCks s.rxCount.toNat a b ha, count_succ_of_lt hlt, hstate, rfl,
      rfl⟩
  · have hexec := execRxb_checksum_last (b := b) hstate hlen hp (by rwa [← hp] at hpay) hr
      (by rwa [← hr] at hrcv) hlast
    refine ⟨_, hexec, ⟨rfl, rfl, rfl, rfl, rfl⟩, execRxb_sameOutsideRx hexec, fun heq => ?_, fun hne => ?_⟩
    · rw [verdict, if_pos heq]; exact ⟨rfl, rfl⟩
    · rw [verdict, if_neg hne]; exact ⟨rfl, rfl⟩

/-! ## RXB in every inbound state -/

/-- RXB answers NONE, REJECTED, or VALID with as many bytes as the length it holds. -/
theorem execRxb_response {s t : State} {b : Byte} (h : execRxb b s = .next t) :
    ∃ r, Answered s r t ∧ (r = .none ∨ r = .rejected ∨ ∃ p len, r = .valid p ∧
      s.rxState = .checksum ∧ s.rxLen = some len ∧ p.length = len.toNat) := by
  obtain ⟨-, rfl⟩ | ⟨-, rfl⟩ | ⟨-, len, -, -, rfl⟩ | ⟨-, -, -, rfl⟩ |
    ⟨hstate, -, -, len, p, rcv, hlen, hp, -, rfl⟩ := execRxb_cases h
  · refine ⟨.none, ?_, .inl rfl⟩
    unfold rxbInSync; split <;> exact ⟨rfl, rfl⟩
  · refine ⟨.none, ?_, .inl rfl⟩
    unfold rxbInPayloadLen; split <;> exact ⟨rfl, rfl⟩
  · refine ⟨.none, ?_, .inl rfl⟩
    split <;> exact ⟨rfl, rfl⟩
  · exact ⟨.none, ⟨rfl, rfl⟩, .inl rfl⟩
  · refine ⟨_, ⟨rfl, rfl⟩, .inr ?_⟩
    split
    · exact .inr ⟨p, len, rfl, hstate, hlen, length_of_readBytes hp⟩
    · exact .inl rfl

/-- Settles O16: from the table RXB completes, and the length held in CHECKSUM is 1..127. -/
theorem rxbNeverFails : Obligations.RxbNeverFails := by
  intro s b htable
  obtain ⟨t, hexec, -⟩ := execRxb_rxTable b htable
  obtain ⟨r, hanswered, hr⟩ := execRxb_response hexec
  refine ⟨t, r, hexec, hanswered, execRxb_sameOutsideRx hexec, ?_⟩
  obtain hnone | hrejected | ⟨p, len, hvalid, hstate, hlen, hp⟩ := hr
  · exact .inl hnone
  · exact .inr (.inl hrejected)
  · simp only [RxTable, hstate] at htable
    obtain ⟨len', hlen', hpos, -⟩ := htable
    cases hlen.symm.trans hlen'
    have hmax := len.isLt
    exact .inr (.inr ⟨p, hvalid, by omega, by omega⟩)

/-- Settles O17: each rule's own writes, and nothing outside the RX context. -/
theorem rxbFrame : Obligations.RxbFrame := by
  intro s t b hexec
  refine ⟨execRxb_sameOutsideRx hexec, ?_⟩
  obtain ⟨hstate, rfl⟩ | ⟨hstate, rfl⟩ | ⟨hstate, len, -, -, rfl⟩ | ⟨hstate, -, -, rfl⟩ |
    ⟨hstate, -, -, len, p, rcv, -, -, -, rfl⟩ := execRxb_cases hexec <;> rw [hstate]
  · refine ⟨fun _ => ?_, nofun, nofun, nofun⟩
    unfold rxbInSync; split <;> exact ⟨rfl, rfl, rfl⟩
  · refine ⟨nofun, fun _ => ?_, nofun, nofun⟩
    unfold rxbInPayloadLen; split
    · exact fun _ => rfl
    · exact nofun
  · refine ⟨nofun, nofun, fun _ => ?_, nofun⟩
    split <;> exact ⟨rfl, rfl, fun a ha => Memory.read_write_other _ _ a b ha⟩
  · exact ⟨nofun, nofun, nofun, fun _ _ => ⟨rfl, rfl, fun a ha => Memory.read_write_other _ _ a b ha⟩⟩
  · exact ⟨nofun, nofun, nofun, nofun⟩

/-- Settles O18: from another state SYNC is entered on a refused length or after a whole frame, both times
through EnterSync. -/
theorem enteringSyncResetsContext : Obligations.EnteringSyncResetsContext := by
  intro s t b hexec houtside hsync
  obtain ⟨hstate, -⟩ | ⟨-, rfl⟩ | ⟨hstate, len, -, -, rfl⟩ | ⟨hstate, -, -, rfl⟩ |
    ⟨-, -, -, len, p, rcv, -, -, -, rfl⟩ := execRxb_cases hexec
  · exact absurd hstate houtside
  · unfold rxbInPayloadLen at hsync ⊢
    split at hsync
    · cases hsync
    · rename_i hno
      rw [if_neg hno]
      exact ⟨rfl, rfl, rfl, rfl, rfl⟩
  · split at hsync
    · cases hsync
    · cases hstate.symm.trans hsync
  · cases hstate.symm.trans hsync
  · exact ⟨rfl, rfl, rfl, rfl, rfl⟩

/-- s with another CFG_MAGIC. -/
def withMagic (m : Byte) (s : State) : State := { s with cfgMagic := m }

@[simp] theorem withMagic_rxCount (m : Byte) (s : State) : (withMagic m s).rxCount = s.rxCount := rfl

/-- Settles O19: the rules of the other three states read the RX context and NCK alone. -/
theorem magicIsReadInSyncOnly : Obligations.MagicIsReadInSyncOnly := by
  intro s t b m houtside hexec
  show execRxb b (withMagic m s) = .next (withMagic m t)
  obtain ⟨hstate, -⟩ | ⟨hstate, rfl⟩ | ⟨hstate, len, hlen, hcount, rfl⟩ | ⟨hstate, hcount, hmore, rfl⟩ |
    ⟨hstate, hcount, hlast, len, p, rcv, hlen, hp, hrcv, rfl⟩ := execRxb_cases hexec
  · exact absurd hstate houtside
  · rw [execRxb_payloadLen (s := withMagic m s) hstate, rxbInPayloadLen, rxbInPayloadLen]
    split <;> rfl
  · rw [execRxb_payload (s := withMagic m s) hstate, rxbInPayload_next b (withMagic m s) len hcount hlen,
      withMagic_rxCount]
    split <;> rfl
  · rw [execRxb_checksum (s := withMagic m s) hstate, rxbInChecksum_partial b (withMagic m s) hcount hmore]
    rfl
  · rw [execRxb_checksum (s := withMagic m s) hstate,
      rxbInChecksum_last b (withMagic m s) len p rcv hcount hlast hlen hp hrcv]
    rfl

end Sys2Proof.Safety
end

section
/-! PROOF. The RX framer over runs of bytes: noise, whole frames, corrupted frames and resynchronisation
(41_rx_framer.md R147 to R151). -/

namespace Sys2Proof.Safety

open Sys2Proof.Machine

/-! ## Feeding bytes -/

/-- s with more responses given. -/
def responding (rs : List Response) (s : State) : State := { s with responses := s.responses ++ rs }

theorem responding_responding (qs rs : List Response) (s : State) :
    responding rs (responding qs s) = responding (qs ++ rs) s := by
  simp only [responding, List.append_assoc]

theorem feeds_nil (s : State) : Feeds s [] s := rfl

/-- A fed byte is taken by RXB, whose rule does not see the requests behind it (00_scope.md R13). -/
theorem feeds_cons_iff {s t : State} {b : Byte} {bs : List Byte} :
    Feeds s (b :: bs) t ↔ ∃ u, execRxb b s = .next u ∧ Feeds { u with requests := s.requests } bs t := by
  have hstep : step (feeding (b :: bs) s) = execRxb b (feeding (b :: bs) s) := step_asmRxb rfl
  constructor
  · intro h
    obtain ⟨v, hv, hrun⟩ := exists_step_of_run_succ h
    obtain ⟨x, c, rfl, hagree⟩ := execRxb_eq_respond_withRx (hstep.symm.trans hv)
    exact ⟨_, hagree s ⟨⟨rfl, rfl, rfl, rfl, rfl⟩, rfl, rfl⟩, hrun⟩
  · rintro ⟨u, hu, hrun⟩
    obtain ⟨x, c, rfl, hagree⟩ := execRxb_eq_respond_withRx hu
    have hfed := hagree (feeding (b :: bs) s) ⟨⟨rfl, rfl, rfl, rfl, rfl⟩, rfl, rfl⟩
    exact (run_succ _ (hstep.trans hfed)).trans hrun

theorem Feeds.append {s t u : State} {as bs : List Byte} (h : Feeds s as t) (h' : Feeds t bs u) :
    Feeds s (as ++ bs) u := by
  induction as generalizing s with
  | nil => cases h; exact h'
  | cons a as ih =>
    obtain ⟨v, hv, h⟩ := feeds_cons_iff.1 h
    exact feeds_cons_iff.2 ⟨v, hv, ih h⟩

/-- Feeding one byte that RXB answers with x, leaving c. -/
theorem feeds_byte {s c : State} {b : Byte} {x : Response} (h : execRxb b s = .next (respond x c))
    (hport : c.requests = s.requests) : Feeds s [b] (responding [x] c) := by
  refine feeds_cons_iff.2 ⟨_, h, ?_⟩
  rw [← hport]
  exact feeds_nil _

/-- Settles O50: by induction on the bytes, each of which is answered NONE and discarded. -/
theorem noiseLaw : Obligations.NoiseLaw := by
  intro s bs hstate hnoise
  show Feeds s bs (responding (List.replicate bs.length .none) s)
  induction bs generalizing s with
  | nil => rw [List.length_nil, List.replicate_zero, responding, List.append_nil]; exact feeds_nil s
  | cons b bs ih =>
    obtain ⟨hb, hbs⟩ := List.forall_mem_cons.1 hnoise
    have h := (feeds_byte (execRxb_sync_noise hstate hb) rfl).append (ih (responding [.none] s) hstate hbs)
    rwa [responding_responding] at h

/-! ## Whole frames -/

theorem frameResponses_append (as : List Byte) {bs : List Byte} (hne : bs ≠ []) (r : Response) :
    frameResponses (as ++ bs) r = List.replicate as.length .none ++ frameResponses bs r := by
  have hpos := List.length_pos_iff.2 hne
  rw [frameResponses, frameResponses, List.length_append, Nat.add_sub_assoc hpos, List.replicate_add,
    List.append_assoc]

theorem startPayload_responding (b : Byte) (rs : List Response) (s : State) :
    startPayload b (responding rs s) = responding rs (startPayload b s) := rfl

theorem startTrailer_responding (m : Memory) (rs : List Response) (s : State) :
    startTrailer m (responding rs s) = responding rs (startTrailer m s) := rfl

/-- The frame start and an accepted length byte (41_rx_framer.md R141, R142). -/
theorem feeds_header {s : State} {b : Byte} (hstate : s.rxState = .sync) (hb : 1 ≤ b.toNat ∧ b.toNat ≤ 127) :
    Feeds s [s.cfgMagic, b] (responding [.none, .none] (startPayload b s)) := by
  have h := (feeds_byte (execRxb_sync_magic hstate rfl) rfl).append
    (feeds_byte (execRxb_payloadLen_accepted rfl hb) rfl)
  rw [startPayload_responding, responding_responding] at h
  exact h

/-- The payload phase (41_rx_framer.md R143): with q received, the rest of the payload brings the machine to
CHECKSUM with the whole payload held. -/
theorem feeds_payload {s : State} {len : BitVec 7} (p : List Byte) {q : List Byte}
    (hstate : s.rxState = .payload) (hlen : s.rxLen = some len) (hq : Holds s.rxPayload q)
    (hcount : q.length = s.rxCount.toNat) (hfit : q.length + p.length = len.toNat) (hne : p ≠ []) :
    ∃ m, Holds m (q ++ p) ∧
      Feeds s p (responding (List.replicate p.length .none) (startTrailer m s)) := by
  induction p generalizing s q with
  | nil => exact absurd rfl hne
  | cons b p ih =>
    have hq' : Holds (storePayload b s).rxPayload (q ++ [b]) := by
      rw [storePayload, ← hcount]; exact hq.write b
    rw [List.length_cons] at hfit
    obtain rfl | hp := eq_or_ne p []
    · rw [hcount] at hfit
      exact ⟨_, hq', feeds_byte (execRxb_payload_last hstate hlen hfit) rfl⟩
    · have hpos := List.length_pos_iff.2 hp
      have hbyte := feeds_byte (execRxb_payload_more (b := b) hstate hlen (by omega)) rfl
      have hcount' : (q ++ [b]).length = (storePayload b s).rxCount.toNat := by
        rw [storePayload, count_succ_of_lt (n := len) (by omega), ← hcount, List.length_append,
          List.length_singleton]
      obtain ⟨m, hm, hrest⟩ := ih (s := responding [.none] (storePayload b s)) hstate hlen hq' hcount'
        (by rw [List.length_append, List.length_singleton]; omega) hp
      rw [List.append_assoc] at hm
      have h := hbyte.append hrest
      rw [startTrailer_responding, responding_responding] at h
      exact ⟨m, hm, h⟩

/-- The checksum phase (41_rx_framer.md R144): with the payload p held and rcv received, the rest of the trailer
completes the frame. -/
theorem feeds_trailer {s : State} {len : BitVec 7} {p : List Byte} (rest : List Byte) {rcv : List Byte}
    (hstate : s.rxState = .checksum) (hlen : s.rxLen = some len) (hp : p.length = len.toNat)
    (hpay : Holds s.rxPayload p) (hrcv : Holds s.rxCks rcv) (hcount : rcv.length = s.rxCount.toNat)
    (hfit : rcv.length + rest.length = s.cfgNck.toNat) (hne : rest ≠ []) :
    Feeds s rest (enterSync (responding
      (frameResponses rest (verdict s.cfgNck.toNat p (rcv ++ rest))) s)) := by
  induction rest generalizing s rcv with
  | nil => exact absurd rfl hne
  | cons b rest ih =>
    rw [List.length_cons] at hfit
    obtain rfl | hrest := eq_or_ne rest []
    · rw [hcount] at hfit
      exact feeds_byte (execRxb_checksum_last hstate hlen hp hpay hcount hrcv hfit) rfl
    · have hpos := List.length_pos_iff.2 hrest
      have hmore : s.rxCount.toNat + 1 < s.cfgNck.toNat := by omega
      have hrcv' : Holds (storeCks b s).rxCks (rcv ++ [b]) := by
        rw [storeCks, ← hcount]; exact hrcv.write b
      have hcount' : (rcv ++ [b]).length = (storeCks b s).rxCount.toNat := by
        rw [storeCks, count_succ_of_lt (Nat.lt_of_succ_lt hmore), ← hcount, List.length_append,
          List.length_singleton]
      have hbyte := feeds_byte (execRxb_checksum_more (b := b) hstate hmore) rfl
      have h := hbyte.append (ih (s := responding [.none] (storeCks b s)) hstate hlen hpay hrcv' hcount'
        (by rw [List.length_append, List.length_singleton]; exact (Nat.add_right_comm ..).trans hfit) hrest)
      rw [List.append_assoc, responding_responding] at h
      rw [← List.singleton_append, frameResponses_append [b] hrest]
      exact h

/-- A frame with any payload of 1..127 bytes and any trailer of NCK bytes, fed in SYNC, is answered on its last
byte and leaves the context reset (41_rx_framer.md R148, R150). -/
theorem feeds_frame {s : State} {b : Byte} {p c : List Byte} (hstate : s.rxState = .sync)
    (hb : b.toNat = p.length) (hpos : 1 ≤ p.length) (hmax : p.length ≤ 127) (hc : c.length = s.cfgNck.toNat) :
    Feeds s ([s.cfgMagic, b] ++ p ++ c) (enterSync (responding
      (frameResponses ([s.cfgMagic, b] ++ p ++ c) (verdict s.cfgNck.toNat p c)) s)) := by
  have hlen : (lengthField b).toNat = p.length := by rw [lengthField_toNat b (by omega), hb]
  have hpne : p ≠ [] := List.length_pos_iff.1 hpos
  have hcne : c ≠ [] := List.length_pos_iff.1 (hc ▸ s.cfgNck.pos)
  have hheader := feeds_header (b := b) hstate ⟨hb ▸ hpos, hb ▸ hmax⟩
  obtain ⟨m, hm, hpayload⟩ := feeds_payload (s := responding [.none, .none] (startPayload b s)) p rfl rfl
    (holds_nil _) rfl (by rw [List.length_nil, Nat.zero_add, hlen]) hpne
  rw [startTrailer_responding, responding_responding] at hpayload
  have htrailer := feeds_trailer
    (s := responding ([.none, .none] ++ List.replicate p.length .none) (startTrailer m (startPayload b s))) c
    rfl rfl hlen.symm hm (holds_nil _) rfl ((Nat.zero_add _).trans hc) hcne
  have h := (hheader.append hpayload).append htrailer
  rw [responding_responding] at h
  rw [frameResponses_append _ hcne, List.length_append, List.replicate_add]
  exact h

theorem length_byte_toNat {n : Nat} (h : n ≤ 127) : (BitVec.ofNat 8 n).toNat = n := by
  rw [BitVec.toNat_ofNat]
  omega

/-- Settles O51: the trailer of a valid frame is the cascade of its payload. -/
theorem acceptanceLaw : Obligations.AcceptanceLaw := by
  intro s p hstate hpos hmax
  have h := feeds_frame hstate (length_byte_toNat hmax) hpos hmax (cascade_length p s.cfgNck.toNat)
  rw [verdict, if_pos rfl] at h
  exact h

theorem enterSync_eq_self {s : State} (h : RxReset s) : enterSync s = s := by
  obtain ⟨hstate, hcount, hlen, hpay, hcks⟩ := h
  exact withRx_eq_self (c := enterSync s) ⟨hstate.symm, hcount.symm, hlen.symm, hpay.symm, hcks.symm⟩

/-- Settles O52: by induction on the frames, each of which is accepted and ends in the reset context the next one
starts from. -/
theorem pipeliningLaw : Obligations.PipeliningLaw := by
  intro s ps hreset hps
  show Feeds s _ (responding (ps.flatMap fun p => frameResponses (frameOf s.cfgMagic s.cfgNck p) (.valid p)) s)
  induction ps generalizing s with
  | nil => rw [List.flatMap_nil, List.flatMap_nil, responding, List.append_nil]; exact feeds_nil s
  | cons p ps ih =>
    obtain ⟨⟨hpos, hmax⟩, hps⟩ := List.forall_mem_cons.1 hps
    have ⟨hstate, _⟩ := hreset
    have hframe : Feeds s _ (enterSync (responding _ s)) := acceptanceLaw s p hstate hpos hmax
    rw [enterSync_eq_self (s := responding _ s) hreset] at hframe
    have h := hframe.append (ih (responding _ s) hreset hps)
    rw [responding_responding] at h
    exact h

/-! ## Corrupted frames -/

theorem foldl_cascadeByte_head (p : List Byte) (x : Byte) (c : List Byte) :
    (p.foldl (fun c v => cascadeByte v c) (x :: c))[0]? = some (x + p.sum) := by
  induction p generalizing x c with
  | nil => simp
  | cons v p ih => rw [List.foldl_cons, cascadeByte, ih, List.sum_cons, add_assoc]

/-- Level 0 of the cascade is 1 plus the sum of the payload (42_tx_checksum.md R172). -/
theorem cascade_level_zero (p : List Byte) {n : Nat} (hn : 1 ≤ n) : (cascade p n)[0]? = some (1 + p.sum) := by
  obtain ⟨k, rfl⟩ := Nat.exists_eq_add_of_le' hn
  exact foldl_cascadeByte_head p 1 _

/-- Changing one byte changes the sum. -/
theorem sum_set_ne {p : List Byte} {i : Nat} {x : Byte} (hi : i < p.length) (hx : p[i]? ≠ some x) :
    (p.set i x).sum ≠ p.sum := by
  rw [List.sum_set', dif_pos hi, Ne, add_eq_left, neg_add_eq_zero]
  rwa [List.getElem?_eq_getElem hi, Ne, Option.some_inj] at hx

/-- Changing one payload byte changes level 0 of the cascade (42_tx_checksum.md R174). -/
theorem cascade_set_level_zero_ne {p : List Byte} {n i : Nat} {x : Byte} (hn : 1 ≤ n) (hi : i < p.length)
    (hx : p[i]? ≠ some x) : (cascade (p.set i x) n)[0]? ≠ (cascade p n)[0]? := by
  rw [cascade_level_zero _ hn, cascade_level_zero _ hn, Ne, Option.some_inj, add_right_inj]
  exact sum_set_ne hi hx

/-- One byte changed in a payload and its cascade leaves a payload and a trailer of the same lengths that do not
belong together: either the changed payload has another cascade, or the trailer is no longer the payload's. -/
theorem exists_corrupted {p : List Byte} {n j : Nat} {x : Byte} (hn : 1 ≤ n) (hj : j < p.length + n)
    (hx : (p ++ cascade p n)[j]? ≠ some x) :
    ∃ p' c, (p ++ cascade p n).set j x = p' ++ c ∧ p'.length = p.length ∧ c.length = n ∧ cascade p' n ≠ c := by
  obtain hpay | htrailer := Nat.lt_or_ge j p.length
  · rw [List.getElem?_append_left hpay] at hx
    exact ⟨p.set j x, cascade p n, List.set_append_left _ _ hpay, List.length_set, cascade_length p n,
      fun heq => cascade_set_level_zero_ne hn hpay hx (by rw [heq])⟩
  · rw [List.getElem?_append_right htrailer] at hx
    refine ⟨p, (cascade p n).set (j - p.length) x, List.set_append_right _ _ htrailer, rfl,
      List.length_set.trans (cascade_length p n), fun heq => hx ?_⟩
    rw [heq, List.getElem?_set_self]
    rw [cascade_length]
    omega

theorem frameOf_set_two_add (magic : Byte) (nck : Nck) (p : List Byte) (j : Nat) (x : Byte) :
    (frameOf magic nck p).set (2 + j) x =
      [magic, BitVec.ofNat 8 p.length] ++ (p ++ cascade p nck.toNat).set j x := by
  rw [frameOf, List.append_assoc, Nat.add_comm]
  rfl

theorem frameResponses_set (frame : List Byte) (i : Nat) (x : Byte) (r : Response) :
    frameResponses (frame.set i x) r = frameResponses frame r := by
  rw [frameResponses, frameResponses, List.length_set]

/-- Settles O53: the frame fed has a payload and a trailer that do not belong together. -/
theorem corruptionLaw : Obligations.CorruptionLaw := by
  intro s p i x hstate hpos hmax hlo hi hx
  obtain ⟨j, rfl⟩ := Nat.exists_eq_add_of_le hlo
  rw [frameOf_getElem?_two_add] at hx
  rw [frameOf_length, Nat.add_assoc, Nat.add_lt_add_iff_left] at hi
  obtain ⟨p', c, hset, hp', hc, hne⟩ := exists_corrupted s.cfgNck.pos hi hx
  have h := feeds_frame hstate ((length_byte_toNat hmax).trans hp'.symm) (hp' ▸ hpos) (hp' ▸ hmax) hc
  rw [verdict, if_neg hne, List.append_assoc, ← hset, ← frameOf_set_two_add, frameResponses_set] at h
  exact h

/-! ## Resynchronisation -/

/-- How many bytes bring the machine back to SYNC at the latest, by the rules of R142 to R144. -/
def bytesToSync (s : State) : Nat :=
  match s.rxState with
  | .sync => 0
  | .payloadLen => 128 + s.cfgNck.toNat
  | .payload => (s.rxLen.getD 0).toNat - s.rxCount.toNat + s.cfgNck.toNat
  | .checksum => s.cfgNck.toNat - s.rxCount.toNat

theorem bytesToSync_le (s : State) :
    bytesToSync s ≤ 255 ∧ (s.rxState ≠ .payloadLen → bytesToSync s ≤ 254) := by
  have hnck : s.cfgNck.toNat < 128 := s.cfgNck.val.isLt
  have hlen := (s.rxLen.getD 0).isLt
  cases hstate : s.rxState with
  | payloadLen =>
    simp only [bytesToSync, hstate]
    exact ⟨by omega, fun hne => absurd rfl hne⟩
  | sync | payload | checksum =>
    simp only [bytesToSync, hstate]
    omega

theorem bytesToSync_respond (x : Response) (s : State) : bytesToSync (respond x s) = bytesToSync s := rfl

/-- Outside SYNC every byte brings the machine nearer to it. -/
theorem execRxb_bytesToSync_lt {s t : State} {b : Byte} (h : RxTable s) (houtside : s.rxState ≠ .sync)
    (hexec : execRxb b s = .next t) : bytesToSync t < bytesToSync s := by
  have hnck : 0 < s.cfgNck.toNat := s.cfgNck.pos
  obtain ⟨hstate, -⟩ | ⟨hstate, rfl⟩ | ⟨hstate, len, hlen, -, rfl⟩ | ⟨hstate, hcount, -, rfl⟩ |
    ⟨hstate, hcount, -, len, p, rcv, -, -, -, rfl⟩ := execRxb_cases hexec
  · exact absurd hstate houtside
  · have hmax := (lengthField b).isLt
    rw [rxbInPayloadLen, bytesToSync_respond]
    split
    · simp only [bytesToSync, hstate, Option.getD_some]
      omega
    · simp only [bytesToSync, hstate, enterSync_rxState]
      omega
  · simp only [RxTable, hstate] at h
    obtain ⟨len', hlen', hlt, -⟩ := h
    cases hlen.symm.trans hlen'
    have hsucc := count_succ_of_lt hlt
    rw [bytesToSync_respond]
    split <;> simp only [bytesToSync, hstate, hlen, Option.getD_some] <;> omega
  · have hsucc := count_succ_of_lt hcount
    rw [bytesToSync_respond]
    simp only [bytesToSync, hstate]
    omega
  · rw [bytesToSync_respond]
    simp only [bytesToSync, hstate, enterSync_rxState]
    omega

/-- From the table, as many bytes as bytesToSync counts, or fewer, bring the machine to SYNC. -/
theorem exists_feeds_sync {s : State} (bs : List Byte) (h : RxTable s) (hbs : bytesToSync s ≤ bs.length) :
    ∃ k t, k ≤ bytesToSync s ∧ Feeds s (bs.take k) t ∧ t.rxState = .sync := by
  induction bs generalizing s with
  | nil =>
    refine ⟨0, s, Nat.zero_le _, feeds_nil s, by_contra fun houtside => ?_⟩
    obtain ⟨t, ht, -⟩ := execRxb_rxTable 0 h
    exact absurd (execRxb_bytesToSync_lt h houtside ht) (Nat.not_lt_of_ge (hbs.trans (Nat.zero_le _)))
  | cons b bs ih =>
    by_cases hstate : s.rxState = .sync
    · exact ⟨0, s, Nat.zero_le _, feeds_nil s, hstate⟩
    · obtain ⟨u, hu, htable⟩ := execRxb_rxTable b h
      have hlt := execRxb_bytesToSync_lt h hstate hu
      obtain ⟨k, t, hk, hfeeds, hsync⟩ := ih (s := { u with requests := s.requests })
        (htable.congr rfl ⟨rfl, rfl, rfl, rfl, rfl⟩) (Nat.le_of_lt_succ (hlt.trans_le hbs))
      exact ⟨k + 1, t, hk.trans_lt hlt, feeds_cons_iff.2 ⟨u, hu, hfeeds⟩, hsync⟩

/-- Settles O54: the bound on the bytes to SYNC, where MAGIC starts a frame. -/
theorem boundedResynchronisation : Obligations.BoundedResynchronisation := by
  intro s bs htable hlength
  obtain ⟨hbound, hbound'⟩ := bytesToSync_le s
  obtain ⟨k, t, hk, hfeeds, hstate⟩ := exists_feeds_sync bs htable (by omega)
  exact ⟨k, t, hk.trans hbound, fun hne => hk.trans (hbound' hne), hfeeds, hstate, _,
    feeds_byte (execRxb_sync_magic hstate rfl) rfl, rfl⟩

end Sys2Proof.Safety
end

section
/-! PROOF. The cascade in closed form, and what follows from it: its structure and what it detects
(42_tx_checksum.md R172 to R174). -/

namespace Sys2Proof.Safety

open Sys2Proof.Machine

/-! ## One more payload byte -/

theorem cascade_concat (p : List Byte) (v : Byte) (n : Nat) :
    cascade (p ++ [v]) n = cascadeByte v (cascade p n) := by
  rw [cascade, List.foldl_concat, cascade]

theorem cascadeByte_level_zero {cs : List Byte} {x : Byte} (h : cs[0]? = some x) (v : Byte) :
    (cascadeByte v cs)[0]? = some (x + v) := by
  cases cs with
  | nil => cases h
  | cons _ _ => cases h; rfl

/-- To a level above 0 the level below is added, as just updated. -/
theorem cascadeByte_level_succ {cs : List Byte} {k : Nat} {v x y : Byte} (hx : cs[k + 1]? = some x)
    (hy : (cascadeByte v cs)[k]? = some y) : (cascadeByte v cs)[k + 1]? = some (x + y) := by
  induction k generalizing cs v with
  | zero =>
    cases cs with
    | nil => cases hx
    | cons _ _ => cases hy; exact cascadeByte_level_zero hx _
  | succ k ih =>
    cases cs with
    | nil => cases hx
    | cons _ _ => exact ih hx hy

theorem cascadeStart_level {n k : Nat} (hk : k < n) :
    (cascadeStart n)[k]? = some (BitVec.ofNat 8 (if k = 0 then 1 else 0)) := by
  obtain ⟨m, rfl⟩ := Nat.exists_eq_add_of_lt hk
  cases k with
  | zero => rfl
  | succ k => simp [cascadeStart]

/-! ## The closed form (R172) -/

/-- The closed form of level k before the reduction modulo 256. B(L, 0) needs no case of its own: it is the
binomial coefficient at k = 0. -/
def levelSum (p : List Byte) (k : Nat) : Nat :=
  Nat.choose (p.length + k - 1) k +
    ∑ i ∈ Finset.range p.length, Nat.choose (p.length - 1 - i + k) k * (p.getD i 0).toNat

theorem levelSum_nil (k : Nat) : levelSum [] k = if k = 0 then 1 else 0 := by
  cases k with
  | zero => rfl
  | succ k => simp [levelSum]

/-- The byte just added is weighted once at every level, and the distance of the others from the end grows. -/
theorem levelSum_concat (p : List Byte) (v : Byte) (k : Nat) :
    levelSum (p ++ [v]) k = Nat.choose (p.length + k) k +
      (∑ i ∈ Finset.range p.length, Nat.choose (p.length - i + k) k * (p.getD i 0).toNat + v.toNat) := by
  have hkept : ∀ i ∈ Finset.range p.length, (p ++ [v]).getD i 0 = p.getD i 0 := fun i hi =>
    List.getD_append _ _ _ _ (Finset.mem_range.1 hi)
  have hlast : (p ++ [v]).getD p.length 0 = v := by simp
  rw [levelSum, List.length_append, List.length_singleton, Finset.sum_range_succ, hlast,
    Finset.sum_congr rfl fun i hi => by rw [hkept i hi]]
  simp [Nat.add_right_comm]

theorem levelSum_concat_zero (p : List Byte) (v : Byte) : levelSum (p ++ [v]) 0 = levelSum p 0 + v.toNat := by
  rw [levelSum_concat, levelSum]
  simp [Nat.add_assoc]

/-- Pascal's rule, term by term. -/
theorem levelSum_concat_succ (p : List Byte) (v : Byte) (k : Nat) :
    levelSum (p ++ [v]) (k + 1) = levelSum p (k + 1) + levelSum (p ++ [v]) k := by
  have hterm : ∀ i ∈ Finset.range p.length,
      Nat.choose (p.length - i + (k + 1)) (k + 1) * (p.getD i 0).toNat =
        Nat.choose (p.length - 1 - i + (k + 1)) (k + 1) * (p.getD i 0).toNat +
          Nat.choose (p.length - i + k) k * (p.getD i 0).toNat := fun i hi => by
    have hlt := Finset.mem_range.1 hi
    rw [show p.length - 1 - i + (k + 1) = p.length - i + k by omega, ← Nat.add_assoc, Nat.choose_succ_succ',
      Nat.add_comm (Nat.choose _ k), Nat.add_mul]
  rw [levelSum_concat, levelSum_concat, levelSum, Finset.sum_congr rfl hterm, Finset.sum_add_distrib,
    ← Nat.add_assoc p.length k 1, Nat.choose_succ_succ', Nat.add_sub_cancel]
  omega

/-- Each level of the cascade is the closed form (42_tx_checksum.md R172): by induction on the payload from its
end, and on the level. -/
theorem cascade_level (p : List Byte) {n k : Nat} (hk : k < n) :
    (cascade p n)[k]? = some (BitVec.ofNat 8 (levelSum p k)) := by
  induction p using List.reverseRecOn generalizing k with
  | nil => rw [levelSum_nil]; exact cascadeStart_level hk
  | append_singleton p v ihp =>
    rw [cascade_concat]
    induction k with
    | zero =>
      rw [cascadeByte_level_zero (ihp hk), levelSum_concat_zero, BitVec.ofNat_add, BitVec.ofNat_toNat,
        BitVec.setWidth_eq]
    | succ k ihk =>
      rw [cascadeByte_level_succ (ihp hk) (ihk (Nat.lt_of_succ_lt hk)), levelSum_concat_succ, BitVec.ofNat_add]

theorem cascade_eq_map (p : List Byte) (n : Nat) :
    cascade p n = (List.range n).map fun k => BitVec.ofNat 8 (levelSum p k) := by
  refine List.ext_getElem? fun k => ?_
  obtain hk | hk := Nat.lt_or_ge k n
  · rw [cascade_level p hk, List.getElem?_map, List.getElem?_range hk, Option.map_some]
  · rw [List.getElem?_eq_none, List.getElem?_eq_none] <;> simpa using hk

/-- Settles O23: the closed form, where the rule's B(L, 0) = 1 is a binomial coefficient. -/
theorem cascadeClosedForm : Obligations.CascadeClosedForm := by
  intro p n c hc
  have hB : (if c = 0 then 1 else Nat.choose (p.length + c - 1) c) = Nat.choose (p.length + c - 1) c := by
    split_ifs with h
    · rw [h, Nat.choose_zero_right]
    · rfl
  rw [cascade_level p hc, hB, levelSum]

/-! ## Structure (R173) -/

theorem sum_eq_ofNat_sum_toNat (p : List Byte) : p.sum = BitVec.ofNat 8 (p.map BitVec.toNat).sum := by
  induction p with
  | nil => rfl
  | cons v p ih =>
    rw [List.sum_cons, ih, List.map_cons, List.sum_cons, BitVec.ofNat_add, BitVec.ofNat_toNat,
      BitVec.setWidth_eq]

/-- Zero bytes leave the binomial coefficient alone. -/
theorem levelSum_replicate_zero (l k : Nat) :
    levelSum (List.replicate l 0x00) k = Nat.choose (l + k - 1) k := by
  rw [levelSum, List.length_replicate, Finset.sum_eq_zero, Nat.add_zero]
  intro i hi
  rw [List.getD_replicate _ (Finset.mem_range.1 hi)]
  rfl

theorem cascade_nil {n : Nat} (hn : 1 ≤ n) : cascade [] n = 0x01 :: List.replicate (n - 1) 0x00 := by
  obtain ⟨k, rfl⟩ := Nat.exists_eq_add_of_le' hn
  rfl

/-- Settles O24: no level depends on how many there are above it, and each level is its closed form. -/
theorem cascadeStructure : Obligations.CascadeStructure := by
  refine ⟨fun p m n _ hmn => ?_, fun p => ?_, fun n => cascade_nil, fun l => ?_⟩
  · rw [cascade_eq_map, cascade_eq_map, ← List.map_take, List.take_range, Nat.min_eq_left hmn]
  · obtain ⟨x, hx⟩ := List.length_eq_one_iff.1 (cascade_length p 1)
    have hlevel := cascade_level_zero p (Nat.le_refl 1)
    rw [hx] at hlevel ⊢
    cases hlevel
    rw [sum_eq_ofNat_sum_toNat, BitVec.ofNat_add]
    rfl
  · rw [cascade_eq_map, List.map_congr_left fun k _ => by rw [levelSum_replicate_zero]]
    simp [List.range_succ]

/-! ## Detection (R174) -/

/-- The weight of the payload byte at i in level k. -/
def levelWeight (p : List Byte) (i k : Nat) : Nat := Nat.choose (p.length - 1 - i + k) k

/-- A changed byte replaces its own term of the closed form. -/
theorem levelSum_set {p : List Byte} {i : Nat} {x : Byte} (hx : p[i]? = some x) (y : Byte) (k : Nat) :
    levelSum (p.set i y) k + levelWeight p i k * x.toNat = levelSum p k + levelWeight p i k * y.toNat := by
  have hi : i ∈ Finset.range p.length := Finset.mem_range.2 (List.getElem?_eq_some_iff.1 hx).1
  have hself : (p.set i y).getD i 0 = y := by
    rw [List.getD_eq_getElem?_getD, List.getElem?_set_self (Finset.mem_range.1 hi), Option.getD_some]
  have hold : p.getD i 0 = x := by rw [List.getD_eq_getElem?_getD, hx, Option.getD_some]
  have hrest : ∀ j ∈ (Finset.range p.length).erase i, (p.set i y).getD j 0 = p.getD j 0 := fun j hj => by
    rw [List.getD_eq_getElem?_getD, List.getElem?_set_ne (Finset.ne_of_mem_erase hj).symm,
      List.getD_eq_getElem?_getD]
  rw [levelSum, levelSum, List.length_set, ← Finset.add_sum_erase _ _ hi, ← Finset.add_sum_erase _ _ hi,
    Finset.sum_congr rfl fun j hj => by rw [hrest j hj], hself, hold, levelWeight]
  omega

/-- Changing the byte at i changes level k by the byte's difference times its weight. -/
theorem ofNat_levelSum_set {p : List Byte} {i : Nat} {x : Byte} (hx : p[i]? = some x) (y : Byte) (k : Nat) :
    BitVec.ofNat 8 (levelSum (p.set i y) k) =
      BitVec.ofNat 8 (levelSum p k) + BitVec.ofNat 8 (levelWeight p i k) * (y - x) := by
  have h := congrArg (BitVec.ofNat 8) (levelSum_set hx y k)
  simp only [BitVec.ofNat_add, BitVec.ofNat_mul, BitVec.ofNat_toNat, BitVec.setWidth_eq] at h
  linear_combination h

theorem levelWeight_one {p : List Byte} {j i : Nat} (hji : j ≤ i) (hi : i < p.length) :
    levelWeight p j 1 = (i - j) + levelWeight p i 1 := by
  rw [levelWeight, levelWeight, Nat.choose_one_right, Nat.choose_one_right]
  omega

/-- Swapping two bytes changes level 1 by their distance times their difference. -/
theorem cascade_swap_level_one {p : List Byte} {n j i : Nat} {x y : Byte} (hn : 2 ≤ n) (hji : j < i)
    (hx : p[j]? = some x) (hy : p[i]? = some y) :
    ∃ u v, (cascade p n)[1]? = some u ∧ (cascade ((p.set j y).set i x) n)[1]? = some v ∧
      v = u + BitVec.ofNat 8 (i - j) * (y - x) := by
  refine ⟨_, _, cascade_level p hn, cascade_level _ hn, ?_⟩
  have hy' : (p.set j y)[i]? = some y := by rw [List.getElem?_set_ne hji.ne, hy]
  have hweight : levelWeight (p.set j y) i 1 = levelWeight p i 1 := by
    rw [levelWeight, levelWeight, List.length_set]
  rw [ofNat_levelSum_set hy', ofNat_levelSum_set hx, hweight,
    levelWeight_one hji.le (List.getElem?_eq_some_iff.1 hy).1, BitVec.ofNat_add]
  ring

/-- Settles O25: a byte's change shows in level 0, a swap's in level 1 by distance times difference, which for
neighbours is the difference; the rule's example is evaluated. -/
theorem cascadeDetection : Obligations.CascadeDetection := by
  refine ⟨fun p n i x hn hi hx => cascade_set_level_zero_ne hn hi hx, fun p n i x y hn hx hy hne => ?_,
    fun p n j i x y hn hji hx hy => cascade_swap_level_one hn hji hx hy, by decide⟩
  obtain ⟨u, v, hu, hv, h⟩ := cascade_swap_level_one hn (Nat.lt_add_one i) hx hy
  rw [Nat.add_sub_cancel_left, BitVec.one_mul] at h
  refine ⟨u, v, hu, hv, h, fun heq => hne ?_⟩
  rw [heq, left_eq_add, sub_eq_zero] at h
  exact h.symm

end Sys2Proof.Safety
end

section
/-! PROOF. TXP: the frame it prepares, how a receiver takes that frame, and the frame of an empty payload
(42_tx_checksum.md R180 to R183). -/

namespace Sys2Proof.Safety

open Sys2Proof.Machine

/-! ## The frame TXP prepares (R180, R181) -/

theorem decode_txp_of_fields {cw : Word} (hop : opOf cw = 0x02) (himm : imm8Of cw = 0x00) :
    decode cw = .ok .txp := by
  rw [← wordOf_fields cw, hop, himm]
  exact decode_txp

theorem exec_txp_long {s : State} (h : 127 < (operandsOf s).payload.length) :
    exec .txp s = .next (respond .failLen s) := by
  obtain ⟨-, hexec⟩ | ⟨hshort, -⟩ := execTxp_cases s
  · exact hexec
  · exact absurd hshort (Nat.not_le_of_gt h)

/-- The frame TXP answers. -/
def txFrame (s : State) : List Byte := frameOf s.cfgMagic s.cfgNck (operandsOf s).payload

/-- The frame written from byte 0 of tx_scratch. -/
def storeFrame (s : State) : State := { s with txScratch := s.txScratch.writeBytes 0 (txFrame s) }

theorem exec_txp_frame {s : State} (h : (operandsOf s).payload.length ≤ 127) :
    exec .txp s = .next (respond (.okFrame (txFrame s)) (storeFrame s)) := by
  obtain ⟨hlong, -⟩ | ⟨-, hexec⟩ := execTxp_cases s
  · exact absurd h (Nat.not_le_of_gt hlong)
  · exact hexec

theorem storeFrame_read_inside {s : State} {a : Nat} (h : a < (txFrame s).length) :
    (storeFrame s).txScratch.read a = (txFrame s)[a]? := by
  rw [storeFrame, Memory.read_writeBytes, if_pos ⟨Nat.zero_le a, (Nat.zero_add _).symm ▸ h⟩, Nat.sub_zero]

theorem storeFrame_read_beyond {s : State} {a : Nat} (h : (txFrame s).length ≤ a) :
    (storeFrame s).txScratch.read a = s.txScratch.read a := by
  rw [storeFrame, Memory.read_writeBytes, Nat.zero_add, if_neg (fun hin => Nat.not_lt_of_ge h hin.2)]

/-- Settles O20: the two outcomes of TXP by the payload's length. -/
theorem txpPreparesFrame : Obligations.TxpPreparesFrame := by
  refine ⟨fun cw => decode_txp_of_fields, fun s => ⟨fun hlong => ?_, fun hshort => ?_⟩⟩
  · exact ⟨_, exec_txp_long hlong, ⟨rfl, rfl⟩, respond_sameBlock _ s, ⟨rfl, rfl⟩⟩
  · exact ⟨_, txFrame s, exec_txp_frame hshort, ⟨rfl, rfl⟩, rfl, frameOf_length .., fun _ => storeFrame_read_inside,
      fun _ => storeFrame_read_beyond, ⟨rfl, rfl, rfl⟩, ⟨rfl, rfl, rfl, rfl, rfl⟩, ⟨rfl, rfl⟩⟩

/-- Settles O56: TXP's frame is the one the acceptance law speaks of, with the receiver's MAGIC and NCK. -/
theorem transmittedFrameIsReceived : Obligations.TransmittedFrameIsReceived := by
  intro tx rx hmagic hnck hstate hpos hmax
  have hframe : txFrame tx = frameOf rx.cfgMagic rx.cfgNck (operandsOf tx).payload := by
    rw [txFrame, hmagic, hnck]
  have hfeeds := acceptanceLaw rx _ hstate hpos hmax
  rw [← hframe] at hfeeds
  exact ⟨_, txFrame tx, _, exec_txp_frame hmax, ⟨rfl, rfl⟩, hfeeds, ⟨rfl, rfl, rfl, rfl, rfl⟩, rfl⟩

/-! ## Bytes that bring no message -/

/-- The bytes are fed, each is answered NONE, and nothing outside the RX context changes. -/
def FedSilently (s : State) (bs : List Byte) (t : State) : Prop :=
  Feeds s bs t ∧ SameOutsideRx s t ∧ t.responses = s.responses ++ List.replicate bs.length .none

theorem FedSilently.feeds {s t : State} {bs : List Byte} (h : FedSilently s bs t) : Feeds s bs t := h.1

theorem SameOutsideRx.trans {s t u : State} (hst : SameOutsideRx s t) (htu : SameOutsideRx t u) :
    SameOutsideRx s u := by
  obtain ⟨hcfg, hscratch, hmark, hinfo⟩ := hst
  obtain ⟨hcfg', hscratch', hmark', hinfo'⟩ := htu
  exact ⟨hcfg.trans hcfg', hscratch'.trans hscratch, hmark.trans hmark', hinfo.trans hinfo'⟩

theorem fedSilently_nil (s : State) : FedSilently s [] s :=
  ⟨feeds_nil s, ⟨⟨rfl, rfl, rfl⟩, rfl, rfl, rfl⟩, (List.append_nil _).symm⟩

theorem FedSilently.append {s t u : State} {as bs : List Byte} (h : FedSilently s as t)
    (h' : FedSilently t bs u) : FedSilently s (as ++ bs) u := by
  obtain ⟨hfeeds, hsame, hresp⟩ := h
  obtain ⟨hfeeds', hsame', hresp'⟩ := h'
  refine ⟨hfeeds.append hfeeds', hsame.trans hsame', ?_⟩
  rw [hresp', hresp, List.length_append, List.replicate_add, List.append_assoc]

/-- Feeding one byte that RXB answers NONE, leaving c. -/
theorem fedSilently_byte {s c : State} {b : Byte} (h : execRxb b s = .next (respond .none c))
    (hport : c.requests = s.requests) (hresp : c.responses = s.responses) :
    FedSilently s [b] (responding [.none] c) := by
  have hsame := execRxb_sameOutsideRx h
  exact ⟨feeds_byte h hport, hsame, congrArg (· ++ [Response.none]) hresp⟩

theorem fedSilently_noise {s : State} {bs : List Byte} (hstate : s.rxState = .sync)
    (hnoise : ∀ b ∈ bs, b ≠ s.cfgMagic) :
    FedSilently s bs (responding (List.replicate bs.length .none) s) :=
  ⟨noiseLaw s bs hstate hnoise, ⟨⟨rfl, rfl, rfl⟩, rfl, rfl, rfl⟩, rfl⟩

theorem exists_fedSilently_magic {s : State} {b : Byte} (hstate : s.rxState = .sync) (hb : b = s.cfgMagic) :
    ∃ t, FedSilently s [b] t ∧ t.rxState = .payloadLen :=
  ⟨_, fedSilently_byte (execRxb_sync_magic hstate hb) rfl rfl, rfl⟩

/-- The length byte 0x00 discards the frame (41_rx_framer.md R142). -/
theorem exists_fedSilently_zero_length {s : State} (hstate : s.rxState = .payloadLen) :
    ∃ t, FedSilently s [0x00] t ∧ RxReset t :=
  ⟨_, fedSilently_byte (execRxb_payloadLen_discarded hstate (by decide)) rfl rfl, ⟨rfl, rfl, rfl, rfl, rfl⟩⟩

/-! ## The frame of an empty payload (R182) -/

theorem frameOf_nil (magic : Byte) (nck : Nck) :
    frameOf magic nck [] = [magic, 0x00, 0x01] ++ List.replicate (nck.toNat - 1) 0x00 := by
  rw [frameOf, cascade_nil nck.pos]
  rfl

/-- The header and the trailer of an empty payload's frame. -/
theorem frameOf_nil_split (magic : Byte) (nck : Nck) :
    frameOf magic nck [] = [magic, 0x00] ++ 0x01 :: List.replicate (nck.toNat - 1) 0x00 :=
  frameOf_nil magic nck

theorem frameOf_nil_take_three (magic : Byte) (nck : Nck) :
    (frameOf magic nck []).take 3 = [magic, 0x00] ++ [0x01] := by
  rw [frameOf_nil]
  rfl

theorem frameOf_nil_take_four (magic : Byte) {nck : Nck} (hnck : 2 ≤ nck.toNat) :
    (frameOf magic nck []).take 4 = [magic, 0x00] ++ [0x01] ++ [0x00] := by
  obtain ⟨k, hk⟩ := Nat.exists_eq_add_of_le' hnck
  rw [frameOf_nil, hk]
  rfl

/-- The header of an empty payload's frame resets the receiver. -/
theorem exists_fedSilently_emptyHeader {s : State} (hstate : s.rxState = .sync) :
    ∃ t, FedSilently s [s.cfgMagic, 0x00] t ∧ RxReset t := by
  obtain ⟨t, ht, hlen⟩ := exists_fedSilently_magic hstate rfl
  obtain ⟨u, hu, hreset⟩ := exists_fedSilently_zero_length hlen
  exact ⟨u, ht.append hu, hreset⟩

/-- The machine has taken no length byte: it waits for MAGIC or for the length. -/
def BeforePayload (s : State) : Prop := s.rxState = .sync ∨ s.rxState = .payloadLen

theorem exists_fedSilently_sync {s : State} (b : Byte) (hstate : s.rxState = .sync) :
    ∃ t, FedSilently s [b] t ∧ BeforePayload t := by
  obtain hmagic | hnoise := eq_or_ne b s.cfgMagic
  · obtain ⟨t, ht, hlen⟩ := exists_fedSilently_magic hstate hmagic
    exact ⟨t, ht, .inr hlen⟩
  · exact ⟨_, fedSilently_noise hstate (List.forall_mem_singleton.2 hnoise), .inl hstate⟩

/-- Zero bytes never start a payload: one taken as a length discards the frame. -/
theorem exists_fedSilently_zeros (n : Nat) {s : State} (h : BeforePayload s) :
    ∃ t, FedSilently s (List.replicate n 0x00) t := by
  induction n generalizing s with
  | zero => exact ⟨s, fedSilently_nil s⟩
  | succ n ih =>
    have hbyte : ∃ t, FedSilently s [0x00] t ∧ BeforePayload t := by
      obtain hsync | hlen := h
      · exact exists_fedSilently_sync _ hsync
      · obtain ⟨t, ht, hreset, -⟩ := exists_fedSilently_zero_length hlen
        exact ⟨t, ht, .inl hreset⟩
    obtain ⟨t, ht, hbefore⟩ := hbyte
    obtain ⟨u, hu⟩ := ih hbefore
    exact ⟨u, ht.append hu⟩

/-- The trailer of an empty payload's frame, scanned for MAGIC in SYNC, brings no message, and nothing at all where
MAGIC is not in it. -/
theorem exists_fedSilently_emptyTrailer (n : Nat) {s : State} (hreset : RxReset s) :
    ∃ t, FedSilently s (0x01 :: List.replicate n 0x00) t ∧
      (s.cfgMagic ≠ 0x00 → s.cfgMagic ≠ 0x01 → RxReset t) := by
  have ⟨hstate, _⟩ := hreset
  by_cases habsent : s.cfgMagic ≠ 0x00 ∧ s.cfgMagic ≠ 0x01
  · obtain ⟨hzero, hone⟩ := habsent
    have hnoise : ∀ b ∈ 0x01 :: List.replicate n 0x00, b ≠ s.cfgMagic :=
      List.forall_mem_cons.2 ⟨hone.symm, fun b hb => List.eq_of_mem_replicate hb ▸ hzero.symm⟩
    exact ⟨_, fedSilently_noise hstate hnoise, fun _ _ => hreset⟩
  · obtain ⟨t, ht, hbefore⟩ := exists_fedSilently_sync 0x01 hstate
    obtain ⟨u, hu⟩ := exists_fedSilently_zeros n hbefore
    exact ⟨u, ht.append hu, fun hzero hone => absurd ⟨hzero, hone⟩ habsent⟩

/-- Settles O22: the header brings the receiver back to SYNC, where the trailer is scanned: MAGIC 0x01 is its first
byte, and MAGIC 0x00 is not, but its second. -/
theorem emptyPayloadFrame : Obligations.EmptyPayloadFrame := by
  refine ⟨frameOf_nil, fun s hempty => ?_, fun s hstate => ?_⟩
  · have hexec := exec_txp_frame (s := s) (by rw [hempty]; exact Nat.zero_le _)
    rw [txFrame, hempty] at hexec
    exact ⟨_, hexec, rfl, rfl⟩
  obtain ⟨t, ht, hreset⟩ := exists_fedSilently_emptyHeader hstate
  have ⟨hfeeds, ⟨⟨hmagic, _⟩, _⟩, hresp⟩ := ht
  have ⟨hsync, _⟩ := hreset
  refine ⟨?_, ⟨t, hfeeds, hreset, hresp⟩, fun hone => ?_, fun hzero hnck => ?_⟩
  · obtain ⟨u, hu, hend⟩ := exists_fedSilently_emptyTrailer (s.cfgNck.toNat - 1) hreset
    have hwhole := ht.append hu
    rw [← frameOf_nil_split] at hwhole
    obtain ⟨hfeeds', hsame, hresp'⟩ := hwhole
    rw [frameOf_length] at hresp'
    exact ⟨u, hfeeds', hsame, hresp', hmagic ▸ hend⟩
  · obtain ⟨u, hu, hlen⟩ := exists_fedSilently_magic hsync (hone.symm.trans hmagic)
    rw [frameOf_nil_take_three]
    exact ⟨u, (ht.append hu).feeds, hlen⟩
  · have hzero' := hzero.symm.trans hmagic
    have hnoise : ∀ b ∈ [(0x01 : Byte)], b ≠ t.cfgMagic := by
      rw [← hzero']
      decide
    obtain ⟨u, hu, hlen⟩ := exists_fedSilently_magic (s := responding [.none] t) hsync hzero'
    rw [frameOf_nil_take_four _ hnck]
    exact ⟨u, ((ht.append (fedSilently_noise hsync hnoise)).append hu).feeds, hlen⟩

end Sys2Proof.Safety
end

section
/-! PROOF. The exceptions: the fault of an illegal word, and the outcomes of the error taxonomy that are no faults
(60_exceptions.md R203, R204). -/

namespace Sys2Proof.Safety

open Sys2Proof.Machine

/-- Settles O7: a listed word does not decode, so the whole step is the one way a fault is taken. -/
theorem illegalWordTakesFault : Obligations.IllegalWordTakesFault := by
  intro s r rest hr hlisted
  obtain ⟨e, hd⟩ := (decode_error_iff_listed r.cw).2 hlisted
  exact ⟨_, step_of_decode_error hr hd, raiseFault_faultTaken (.illegal r.cw) s⟩

/-- Only the last trailer byte is answered otherwise than with NONE, and it resets the context
(41_rx_framer.md R144, R145). -/
theorem execRxb_answered_none_or_rxReset {s t : State} {b : Byte} (h : execRxb b s = .next t) :
    Answered s .none t ∨ RxReset t := by
  obtain ⟨hstate, -⟩ | ⟨hstate, -⟩ | ⟨-, len, -, -, rfl⟩ | ⟨-, -, -, rfl⟩ |
    ⟨-, -, -, len, p, rcv, -, -, -, rfl⟩ := execRxb_cases h
  · obtain ⟨u, hu, hnone, -⟩ := rxbInSyncSeeksMagic s b hstate
    cases h.symm.trans hu
    exact .inl hnone
  · obtain ⟨u, hu, hnone, -⟩ := rxbInPayloadLenReadsLength s b hstate
    cases h.symm.trans hu
    exact .inl hnone
  · left
    split <;> exact ⟨rfl, rfl⟩
  · exact .inl ⟨rfl, rfl⟩
  · exact .inr ⟨rfl, rfl, rfl, rfl, rfl⟩

/-- Settles O42: the four rows of the taxonomy; a REJECTED answer is not NONE, so the context was reset. -/
theorem taxonomyOutcomesAreNoFaults : Obligations.TaxonomyOutcomesAreNoFaults := by
  refine ⟨fun s b hstate hnoise => ?_, fun s b hstate hlen => ?_, fun s t b hexec hrejected => ?_,
    fun s hlong => ?_⟩
  · exact ⟨_, execRxb_sync_noise hstate hnoise, ⟨rfl, rfl⟩, respond_sameBlock _ s, ⟨rfl, rfl⟩⟩
  · have hexec := execRxb_payloadLen_discarded (b := b) hstate (by omega)
    exact ⟨_, hexec, ⟨rfl, rfl⟩, ⟨rfl, rfl, rfl, rfl, rfl⟩, execRxb_sameOutsideRx hexec⟩
  · refine ⟨?_, execRxb_sameOutsideRx hexec⟩
    obtain hnone | hreset := execRxb_answered_none_or_rxReset hexec
    · cases hnone.unique hrejected
    · exact hreset
  · exact ⟨_, exec_txp_long hlong, ⟨rfl, rfl⟩, respond_sameBlock _ s, ⟨rfl, rfl⟩⟩

end Sys2Proof.Safety
end

section
/-! PROOF. What every run keeps, and flushing a receiver with bytes that are not MAGIC (70_reset_and_hazards.md
R232). -/

namespace Sys2Proof.Safety

open Sys2Proof.Machine

/-- What every step keeps, every run keeps. -/
theorem run_keeps {P : State → Prop} (hstep : ∀ s t, step s = .next t → P s → P t) {k : Nat} {s t : State}
    (hrun : core.run k s = .next t) (h : P s) : P t := by
  induction k generalizing s with
  | zero => cases hrun; exact h
  | succ k ih =>
    obtain ⟨u, hu, hrun⟩ := exists_step_of_run_succ hrun
    exact ih hrun (hstep s u hu h)

theorem Feeds.rxTable {s t : State} {bs : List Byte} (hfeeds : Feeds s bs t) (h : RxTable s) : RxTable t := by
  obtain ⟨hkeeps, -⟩ := stepKeepsInvariant
  exact run_keeps (fun u v hstep h => hkeeps u v h hstep) hfeeds (h.congr rfl ⟨rfl, rfl, rfl, rfl, rfl⟩)

theorem Feeds.sameCfg {s t : State} {bs : List Byte} (hfeeds : Feeds s bs t) : SameCfg s t :=
  run_keeps (P := SameCfg s) (fun u v hstep h => h.trans (configurationIsNeverWritten u v hstep)) hfeeds
    ⟨rfl, rfl, rfl⟩

/-- In SYNC the table asks for the reset context (10_state.md R31). -/
theorem RxTable.rxReset {s : State} (h : RxTable s) (hstate : s.rxState = .sync) : RxReset s := by
  simp only [RxTable, hstate] at h
  exact ⟨hstate, h⟩

/-- Settles O55: some of the 255 bytes bring the machine to SYNC, where the rest are noise. -/
theorem flushReturnsToSync : Obligations.FlushReturnsToSync := by
  intro s bs htable hlength hnoise
  obtain ⟨hbound, -⟩ := bytesToSync_le s
  obtain ⟨k, t, -, hfeeds, hstate⟩ := exists_feeds_sync bs htable (by omega)
  obtain ⟨hmagic, -⟩ := hfeeds.sameCfg
  have hrest : ∀ b ∈ bs.drop k, b ≠ t.cfgMagic := fun b hb => hmagic ▸ hnoise b (List.mem_of_mem_drop hb)
  have hreset := (hfeeds.rxTable htable).rxReset hstate
  have hall := hfeeds.append (noiseLaw t _ hstate hrest)
  rw [List.take_append_drop] at hall
  exact ⟨_, hall, hreset⟩

end Sys2Proof.Safety
end
